-- ==== Sys2Proof/Word.lean ====
section
/-! DEFINITION. The word types of B64C: one name per width of spec/00_scope.md R5. -/

namespace Sys2Proof

/-- A byte of a message, or a character code (BYTE_W = CHAR_W = 8, R5). -/
abbrev Byte := BitVec 8

/-- A symbol value, the 6-bit code of an alphabet character (SYM_W = 6, R5). -/
abbrev Code := BitVec 6

/-- A word of the command port (CMD_W = 10, R5). -/
abbrev CommandWord := BitVec 10

/-- A word of an output port (OUT_W = 9, R5): bit 8 is `eom`, bits 7:0 are `data` (R47). -/
abbrev OutWord := BitVec 9

end Sys2Proof
end

