-- ==== Sys2Proof/Syntax.lean ====
section
/-! DEFINITION. The four commands of B64C (spec/30_encoding.md R43), one constructor per row of spec/opcode_table.json. -/

namespace Sys2Proof

/-- A command. The END commands have no operand: all 256 values of their data field spell the same command (R45). -/
inductive Instr where
  /-- ENC.B: take one byte of the message to encode (R59). -/
  | encB (b : Byte)
  /-- DEC.C: take one character of the text to decode (R71). -/
  | decC (c : Byte)
  /-- ENC.END: end of the message to encode (R60). -/
  | encEnd
  /-- DEC.END: end of the text to decode (R72). -/
  | decEnd
  deriving DecidableEq, Repr

/-- The unit of a command is ENC (bit 8 of its word is 0, R43). -/
def Instr.isEnc : Instr → Bool
  | .encB _ => true
  | .decC _ => false
  | .encEnd => true
  | .decEnd => false

/-- The unit of a command is DEC (bit 8 of its word is 1, R43). -/
def Instr.isDec (i : Instr) : Bool := !i.isEnc

end Sys2Proof
end

