-- ==== Sys2Proof/WellFormed.lean ====
section
/-! DEFINITION. What the spec calls well formed: instructions, command words, canonical command words, assembler operands
and the parameter POS_WIDTH. -/

namespace Sys2Proof

/-- Every operand value of every command is legal (spec/30_encoding.md R44, R45), so a command has nothing that could be
ill formed. -/
def Instr.wf : Instr → Bool
  | .encB _ => true
  | .decC _ => true
  | .encEnd => true
  | .decEnd => true

/-- A number is a command word when it fits the ten bits of the port (R42). -/
def commandWordOk (w : Nat) : Bool := w < 2 ^ 10

/-- A command word is canonical when it is not an END word with data other than 0x00 (R45). -/
def isCanonical (w : CommandWord) : Bool := !(w.getLsbD 9) || w.extractLsb' 0 8 == 0

/-- The assembler's `imm8` is 0..255 (R50). -/
def imm8Ok (n : Nat) : Bool := n < 256

/-- POS_WIDTH is at least 1 (spec/00_scope.md R6). -/
def posWidthOk (n : Nat) : Bool := 1 ≤ n

end Sys2Proof
end

