-- ==== Sys2Proof/Decode.lean ====
section
/-! DEFINITION. From a command word to a command and back (spec/30_encoding.md R42 to R46). -/

namespace Sys2Proof

/-- The field op, bits 9:8 of a command word (R42). -/
def opField (w : CommandWord) : BitVec 2 := w.extractLsb' 8 2

/-- The field data, bits 7:0 of a command word (R42, R44). -/
def dataField (w : CommandWord) : Byte := w.extractLsb' 0 8

/-- The decoder: op selects one of the four commands (R43). It is total on the 1024 command words (R45). -/
def decode (w : CommandWord) : Instr :=
  match (opField w).toNat with
  | 0 => .encB (dataField w)
  | 1 => .decC (dataField w)
  | 2 => .encEnd
  | _ => .decEnd

/-- The op value of a command (R43). -/
def Instr.op : Instr → BitVec 2
  | .encB _ => 0b00
  | .decC _ => 0b01
  | .encEnd => 0b10
  | .decEnd => 0b11

/-- The data field that the assembler gives a command; 0x00 in an END command (R45). -/
def Instr.data : Instr → Byte
  | .encB b => b
  | .decC c => c
  | .encEnd => 0x00
  | .decEnd => 0x00

/-- The canonical word of a command (R42, R45). -/
def encode (i : Instr) : CommandWord := i.op ++ i.data

/-- The match column of the opcode table (R46). -/
def Instr.matchBits : Instr → CommandWord
  | .encB _ => 0x000
  | .decC _ => 0x100
  | .encEnd => 0x200
  | .decEnd => 0x300

/-- The mask column of the opcode table, the same in its four rows (R46). -/
def opMask : CommandWord := 0x300

/-- Why a number given as a command word is rejected. -/
inductive DecodeError where
  /-- It does not fit the ten bits of the command port (R42). -/
  | widerThanTenBits (w : Nat)
  deriving DecidableEq, Repr

/-- The decoder on any number: what does not fit the port is rejected by name, everything else decodes (R42, R45). -/
def decodeNat (w : Nat) : Except DecodeError Instr :=
  if commandWordOk w then .ok (decode (BitVec.ofNat 10 w)) else .error (.widerThanTenBits w)

/-- The command word that the low `nbits` bits of `w` give, with zeros above them, where it fits the port. DESIGN CHOICE,
safe: log entry 10. -/
def tableWord (nbits w : Nat) : Option CommandWord :=
  if commandWordOk (w % 2 ^ nbits) then some (BitVec.ofNat 10 (w % 2 ^ nbits)) else none

/-- What the decoder reads from an instruction whose bits are `w`, numbered as spec/opcode_table.json numbers them. -/
def decodeTableWord (nbits w : Nat) : Option Instr := (tableWord nbits w).map decode

end Sys2Proof
end

