-- ==== Sys2Proof/Config.lean ====
section
/-! DEFINITION. What is fixed for the machine: the constants of spec/00_scope.md R5 and the default of the one open
parameter, POS_WIDTH (R6). The spec leaves no result, flag or register open, so there is no free value here. -/

namespace Sys2Proof

/-- PAD, the padding character `=` as a raw byte (R5). -/
def Config.pad : Byte := 0x3D

/-- ALPHA_N, the number of alphabet entries (R5). -/
def Config.alphaN : Nat := 64

/-- GRP_BYTES, the bytes of a group (R5). -/
def Config.grpBytes : Nat := 3

/-- GRP_SYMS, the symbols of a group (R5). -/
def Config.grpSyms : Nat := 4

/-- The default of POS_WIDTH (R6). The value in force is a field of State, so that every statement about a state speaks
of every POS_WIDTH. DESIGN CHOICE, safe: log entry 2. -/
def Config.posWidthDefault : Nat := 32

end Sys2Proof
end

