-- ==== Sys2Proof/Machine/State.lean ====
section
/-! DEFINITION. The state of B64C (spec/10_state.md R13) as plain data, the reasons a step can stop, and the state right
after reset (R25). -/

namespace Sys2Proof.Machine

/-- What the host may send: a command word, or the reset event, which stands in the same ordered stream as the commands
and never in the middle of one (spec/70_reset_and_hazards.md R101). -/
inductive Event where
  | command (w : CommandWord)
  | reset
  deriving DecidableEq, Repr

/-- The state. The first eleven fields are the tuple of R13, in its order; the last three are the model's own. -/
structure State where
  /-- ENC_PHASE, 2 bits: bytes taken in the current group (R14). -/
  encPhase : BitVec 2
  /-- ENC_RES, 4 bits: input bits taken but not yet sent out (R15). -/
  encRes : BitVec 4
  /-- DEC_PHASE, 2 bits: characters taken in the current group (R16). -/
  decPhase : BitVec 2
  /-- DEC_RES, 6 bits: code bits taken but not yet sent out (R17). -/
  decRes : BitVec 6
  /-- DEC_POS, POS_WIDTH bits: index of the next character (R18). A number below 2^posWidth, an invariant (Safety). -/
  decPos : Nat
  /-- DEC_FAULT, 1 bit: set by a decode fault, until reset (R21). -/
  decFault : Bool
  /-- DEC_CAUSE, 2 bits: cause of the fault (R21). -/
  decCause : BitVec 2
  /-- ERR_CHAR, 8 bits: the offending character (R22). -/
  errChar : Byte
  /-- ERR_POS, POS_WIDTH bits: the position of the fault (R23). A number below 2^posWidth, an invariant (Safety). -/
  errPos : Nat
  /-- ENC_OUT: every output word that ENC has sent since the first reset, oldest first (R26). -/
  encOut : List OutWord
  /-- DEC_OUT: every output word that DEC has sent since the first reset, oldest first (R26). -/
  decOut : List OutWord
  /-- The model's own: the events the host has sent and B64C has not yet taken, the next one first. R13 calls the command
  stream and the moment of a reset parameters of the step. DESIGN CHOICE, safe: log entry 1. -/
  port : List Event
  /-- The model's own: the open parameter POS_WIDTH (R6), which no step changes. DESIGN CHOICE, safe: log entry 2. -/
  posWidth : Nat
  /-- The model's own: the first reset since power-up has come (R102, R104). DESIGN CHOICE, safe: log entry 3. -/
  wasReset : Bool
  deriving DecidableEq, Repr

/-- Why the machine stops with a fault. The spec's two faults of the decoder are no member: they are recorded in registers
and the machine goes on (spec/60_exceptions.md R94). -/
inductive Fault where
  /-- Raised by ENC.B and ENC.END in a state with ENC_PHASE = 3, which no run reaches and for which the spec gives no arm
  (spec/40_encode.md R59). Safe: the model stops. Log entry 4. -/
  | encPhaseThree
  deriving DecidableEq, Repr

/-- Why a step is refused. -/
inductive Refusal where
  /-- Raised by no arm of exec: every command has its meaning. Safe: the model stops. -/
  | notModelled (mnemonic : String)
  /-- Raised by the step that takes a command before the first reset, when every register is unspecified and no command
  has a defined effect (R102, R104). Safe: the model stops. Log entry 3. -/
  | commandBeforeFirstReset
  deriving DecidableEq, Repr

/-- The three outcomes of a command or a step. -/
abbrev Result := Host.Outcome State Fault Refusal

/-- The machine right after its first reset, with POS_WIDTH = `posWidth`: every register at its value of R25, both
histories empty (R102), nothing on the command port. -/
def State.resetAt (posWidth : Nat) : State where
  encPhase := 0
  encRes := 0
  decPhase := 0
  decRes := 0
  decPos := 0
  decFault := false
  decCause := 0
  errChar := 0x00
  errPos := 0
  encOut := []
  decOut := []
  port := []
  posWidth := posWidth
  wasReset := true

/-- The machine right after its first reset, with the spec's default POS_WIDTH. -/
def State.reset : State := State.resetAt Config.posWidthDefault

end Sys2Proof.Machine
end

