-- ==== Sys2Proof/Machine/Ops.lean ====
section
/-! DEFINITION. The named operations: reads of the tables ALPHA and REV, emits, register writes, raising a fault, and the
reset event. -/

namespace Sys2Proof.Machine

/-- ALPHA[v], the formula of spec/20_memory.md R28. The table of R28 is checked against it in the tests. -/
def alpha (v : Code) : Byte :=
  if v ≤ 25 then 0x41 + v.setWidth 8
  else if v ≤ 51 then 0x61 + (v.setWidth 8 - 26)
  else if v ≤ 61 then 0x30 + (v.setWidth 8 - 52)
  else if v = 62 then 0x2B
  else 0x2F

/-- An entry of REV: `valid ++ code`, 7 bits (R31). -/
def revEntry (valid : BitVec 1) (code : Code) : BitVec 7 := valid ++ code

/-- REV[c], the ranges of R31 in their order. The code of an entry with valid = 0 is 0 and no rule reads it (R32). -/
def rev (c : Byte) : BitVec 7 :=
  if c ≤ 0x2A then revEntry 0 0
  else if c = 0x2B then revEntry 1 62
  else if c ≤ 0x2E then revEntry 0 0
  else if c = 0x2F then revEntry 1 63
  else if c ≤ 0x39 then revEntry 1 ((c - 0x30 + 52).setWidth 6)
  else if c ≤ 0x40 then revEntry 0 0
  else if c ≤ 0x5A then revEntry 1 ((c - 0x41).setWidth 6)
  else if c ≤ 0x60 then revEntry 0 0
  else if c ≤ 0x7A then revEntry 1 ((c - 0x61 + 26).setWidth 6)
  else revEntry 0 0

/-- REV[c].valid, entry bit 6 (R31). -/
def revValid (c : Byte) : Bool := (rev c).getLsbD 6

/-- REV[c].code, entry bits 5:0 (R31). -/
def revCode (c : Byte) : Code := (rev c).extractLsb' 0 6

/-- A data word of an output port: `0 ++ v` (spec/30_encoding.md R47). -/
def dataWord (v : Byte) : OutWord := 0#1 ++ v

/-- The EOM word: `1 ++ 0x00` (R47). -/
def eomWord : OutWord := 1#1 ++ (0x00 : Byte)

/-- `emit_enc(v)` (spec/00_scope.md R10). -/
def emitEnc (v : Byte) (s : State) : State := { s with encOut := s.encOut ++ [dataWord v] }

/-- `emit_enc_eom()` (R10). -/
def emitEncEom (s : State) : State := { s with encOut := s.encOut ++ [eomWord] }

/-- `emit_dec(v)` (R10). -/
def emitDec (v : Byte) (s : State) : State := { s with decOut := s.decOut ++ [dataWord v] }

/-- `emit_dec_eom()` (R10). -/
def emitDecEom (s : State) : State := { s with decOut := s.decOut ++ [eomWord] }

/-- The one write of ENC_PHASE and ENC_RES. -/
def writeEnc (phase : BitVec 2) (res : BitVec 4) (s : State) : State :=
  { s with encPhase := phase, encRes := res }

/-- The one write of DEC_PHASE and DEC_RES. -/
def writeDec (phase : BitVec 2) (res : BitVec 6) (s : State) : State :=
  { s with decPhase := phase, decRes := res }

/-- `DEC_POS <- (DEC_POS + 1) mod 2^POS_WIDTH` (spec/42_bit_helpers.md R87). -/
def advancePos (s : State) : State := { s with decPos := (s.decPos + 1) % 2 ^ s.posWidth }

/-- `DEC_POS <- 0` (spec/41_decode.md R72). -/
def clearPos (s : State) : State := { s with decPos := 0 }

/-- DEC_CAUSE of InvalidCharacter (spec/60_exceptions.md R88). -/
def causeInvalidCharacter : BitVec 2 := 1

/-- DEC_CAUSE of TruncatedInput (R88). -/
def causeTruncatedInput : BitVec 2 := 2

/-- What a raise does, the same for both faults: exactly four registers are written, together (R94). -/
def raiseFault (cause : BitVec 2) (char : Byte) (pos : Nat) (s : State) : State :=
  { s with decFault := true, decCause := cause, errChar := char, errPos := pos }

/-- `raise InvalidCharacter(c, pos)` (R94). -/
def raiseInvalidCharacter (c : Byte) (pos : Nat) (s : State) : State :=
  raiseFault causeInvalidCharacter c pos s

/-- `raise TruncatedInput(pos)` (R94). -/
def raiseTruncatedInput (pos : Nat) (s : State) : State :=
  raiseFault causeTruncatedInput 0x00 pos s

/-- The reset event: every register of R13 but the two histories gets its value of R25 (R101). A fault is left only so: there
is no other return (R97). At the first reset after power-up both histories are empty; a later one leaves them (R102). -/
def resetEvent (s : State) : State :=
  { s with
    encPhase := 0, encRes := 0
    decPhase := 0, decRes := 0, decPos := 0
    decFault := false, decCause := 0, errChar := 0x00, errPos := 0
    encOut := if s.wasReset then s.encOut else []
    decOut := if s.wasReset then s.decOut else []
    wasReset := true }

/-- One outcome after another: what follows a next state runs on it, a stop stays (spec/20_memory.md R40). -/
def andThen (r : Result) (f : State → Result) : Result :=
  match r with
  | .next s => f s
  | .fault x => .fault x
  | .refused x => .refused x

end Sys2Proof.Machine
end

