-- ==== Sys2Proof/Machine/Operands.lean ====
section
/-! DEFINITION. The operand of a command is one 8-bit field, used as it stands (spec/30_encoding.md R44). Here are the slices
and concatenations of it that the commands use: the group identities of spec/20_memory.md R35. -/

namespace Sys2Proof.Machine

/-- `s0 = b0[7:2]`. -/
def sym0 (b : Byte) : Code := b.extractLsb' 2 6

/-- `s1 = b0[1:0] ++ b1[7:4]`, from the residue `r = b0[1:0]`. -/
def sym1 (r : BitVec 2) (b : Byte) : Code := r ++ b.extractLsb' 4 4

/-- `s2 = b1[3:0] ++ b2[7:6]`, from the residue `r = b1[3:0]`. -/
def sym2 (r : BitVec 4) (b : Byte) : Code := r ++ b.extractLsb' 6 2

/-- `s3 = b2[5:0]`. -/
def sym3 (b : Byte) : Code := b.extractLsb' 0 6

/-- `b0 = s0[5:0] ++ s1[5:4]`, from the residue `r = s0[5:0]`. -/
def byte0 (r : BitVec 6) (v : Code) : Byte := r ++ v.extractLsb' 4 2

/-- `b1 = s1[3:0] ++ s2[5:2]`, from the residue `r = s1[3:0]`. -/
def byte1 (r : BitVec 4) (v : Code) : Byte := r ++ v.extractLsb' 2 4

/-- `b2 = s2[1:0] ++ s3[5:0]`, from the residue `r = s2[1:0]`. -/
def byte2 (r : BitVec 2) (v : Code) : Byte := r ++ v

/-- The four symbol values of a group of three bytes (R35). -/
def groupSyms (b0 b1 b2 : Byte) : List Code :=
  [sym0 b0, sym1 (b0.extractLsb' 0 2) b1, sym2 (b1.extractLsb' 0 4) b2, sym3 b2]

/-- The three bytes of a group of four symbol values (R35). -/
def groupBytes (s0 s1 s2 s3 : Code) : List Byte :=
  [byte0 s0 s1, byte1 (s1.extractLsb' 0 4) s2, byte2 (s2.extractLsb' 0 2) s3]

end Sys2Proof.Machine
end

