-- ==== Sys2Proof/Machine/Decoder.lean ====
section
/-! DEFINITION. The commands of the DEC unit: DEC.C (spec/41_decode.md R71, R73) and DEC.END (R72, R73). They read and write
no ENC state. -/

namespace Sys2Proof.Machine

/-- The four arms of R71: take the 6-bit code `v`, emit the byte it completes, keep the rest. -/
def takeCode (v : Code) (s : State) : State :=
  if s.decPhase = 0 then
    s |> writeDec 1 v
  else if s.decPhase = 1 then
    s |> emitDec (byte0 s.decRes v) |> writeDec 2 ((v.extractLsb' 0 4).setWidth 6)
  else if s.decPhase = 2 then
    s |> emitDec (byte1 (s.decRes.extractLsb' 0 4) v) |> writeDec 3 ((v.extractLsb' 0 2).setWidth 6)
  else
    s |> emitDec (byte2 (s.decRes.extractLsb' 0 2) v) |> writeDec 0 0

/-- DEC.C (R71). A faulted decoder does nothing (R73; log entry 8); `valid` is tested before any use of the code. -/
def execDecC (c : Byte) (s : State) : Result :=
  if s.decFault then .next s
  else if revValid c then .next (s |> takeCode (revCode c) |> advancePos)
  else .next (raiseInvalidCharacter c s.decPos s)

/-- DEC.END (R72). A faulted decoder does nothing (R73). -/
def execDecEnd (s : State) : Result :=
  if s.decFault then .next s
  else if s.decPhase = 0 then .next (s |> emitDecEom |> clearPos)
  else .next (raiseTruncatedInput s.decPos s)

end Sys2Proof.Machine
end

