-- ==== Sys2Proof/Machine/Encoder.lean ====
section
/-! DEFINITION. The commands of the ENC unit: ENC.B (spec/40_encode.md R59) and ENC.END (R60). They read and write no DEC
state and do not look at DEC_FAULT (spec/60_exceptions.md R96). -/

namespace Sys2Proof.Machine

/-- ENC.B: the three arms of R59. ENC_PHASE = 3 has no arm: it cannot occur (log entry 4). -/
def execEncB (b : Byte) (s : State) : Result :=
  if s.encPhase = 0 then
    .next (s |> emitEnc (alpha (sym0 b)) |> writeEnc 1 ((b.extractLsb' 0 2).setWidth 4))
  else if s.encPhase = 1 then
    .next (s |> emitEnc (alpha (sym1 (s.encRes.extractLsb' 0 2) b)) |> writeEnc 2 (b.extractLsb' 0 4))
  else if s.encPhase = 2 then
    .next (s |> emitEnc (alpha (sym2 s.encRes b)) |> emitEnc (alpha (sym3 b)) |> writeEnc 0 0)
  else .fault .encPhaseThree

/-- ENC.END, the unrolled form of R60. The symbols are those of pad bytes 0x3D = 0b00111101. At phase 0 the residue is
written 0 as the unrolled form says; the loop form leaves it, and the two agree wherever R27 holds (log entry 5). -/
def execEncEnd (s : State) : Result :=
  if s.encPhase = 0 then
    .next (s |> emitEncEom |> writeEnc 0 0)
  else if s.encPhase = 1 then
    .next (s |> emitEnc (alpha (s.encRes.extractLsb' 0 2 ++ 0b0011#4))
      |> emitEnc (alpha (0b1101#4 ++ 0b00#2))
      |> emitEnc (alpha 0b111101)
      |> emitEncEom |> writeEnc 0 0)
  else if s.encPhase = 2 then
    .next (s |> emitEnc (alpha (s.encRes ++ 0b00#2))
      |> emitEnc (alpha 0b111101)
      |> emitEncEom |> writeEnc 0 0)
  else .fault .encPhaseThree

/-- The padding loop of R60 (`while ENC_PHASE != 0 do perform ENC.B with b = 0x3D`), at most `fuel` turns. -/
def encPadLoop : Nat → State → Result
  | 0, s => .next s
  | fuel + 1, s =>
    if s.encPhase = 0 then .next s
    else andThen (execEncB Config.pad s) (encPadLoop fuel)

/-- ENC.END as R60 gives it first: the padding loop, then the EOM word. Two turns are enough (spec/42_bit_helpers.md R85). -/
def encEndByLoop (s : State) : Result :=
  andThen (encPadLoop 2 s) fun t => .next (emitEncEom t)

end Sys2Proof.Machine
end

