-- ==== Sys2Proof/Machine/Dispatch.lean ====
section
/-! DEFINITION. The meaning of each command. -/

namespace Sys2Proof.Machine

def exec (i : Instr) (s : State) : Host.Outcome State Fault Refusal :=
  match i with
  | .encB b => Sys2Proof.Machine.execEncB b s
  | .decC c => Sys2Proof.Machine.execDecC c s
  | .encEnd => Sys2Proof.Machine.execEncEnd s
  | .decEnd => Sys2Proof.Machine.execDecEnd s

end Sys2Proof.Machine
end

