-- ==== Sys2Proof/Machine/Events.lean ====
section
/-! DEFINITION. What one event of the host does, and what a sequence of commands or of events does: the composition of the
single effects, in port order (spec/20_memory.md R40). -/

namespace Sys2Proof.Machine

/-- One event. A command before the first reset is refused (spec/70_reset_and_hazards.md R102, R104; log entry 3). -/
def applyEvent (e : Event) (s : State) : Result :=
  match e with
  | .command w => if s.wasReset then exec (decode w) s else .refused .commandBeforeFirstReset
  | .reset => .next (resetEvent s)

/-- A sequence of commands. -/
def runCommands : List Instr → State → Result
  | [], s => .next s
  | i :: is, s => andThen (exec i s) (runCommands is)

/-- A sequence of events. -/
def runEvents : List Event → State → Result
  | [], s => .next s
  | e :: es, s => andThen (applyEvent e s) (runEvents es)

/-- What an event spells: a command, or nothing for a reset. -/
def Event.instr? : Event → Option Instr
  | .command w => some (decode w)
  | .reset => none

/-- The event is a command of the ENC unit. -/
def Event.isEnc (e : Event) : Bool := e.instr?.any Instr.isEnc

/-- The event is a command of the DEC unit. -/
def Event.isDec (e : Event) : Bool := e.instr?.any Instr.isDec

/-- Put the command word `w` on the port, in front of what is pending. -/
def sendCommand (w : CommandWord) (s : State) : State := { s with port := .command w :: s.port }

/-- Take the first pending event. An empty port leaves the machine as it is: it waits for the next command for ever
(R111; spec/60_exceptions.md R100). -/
def takeEvent (s : State) : Result :=
  match s.port with
  | [] => .next s
  | e :: es => applyEvent e { s with port := es }

end Sys2Proof.Machine
end

