-- ==== Sys2Proof/Machine/Step.lean ====
section
/-! DEFINITION. One step: the first pending event takes effect. -/

namespace Sys2Proof.Machine

/-- One step of B64C (log entry 1). -/
def step (s : State) : Host.Outcome State Fault Refusal := takeEvent s

/-- `s` with the instruction whose bits are `w` put where the step takes its next one: in front of the pending events.
A number that does not fit the ten bits of the port cannot be driven on it, and the port stays as it is. -/
def State.withFetchWord (s : State) (nbits w : Nat) : State :=
  match tableWord nbits w with
  | some c => sendCommand c s
  | none => s

end Sys2Proof.Machine
end

