-- ==== Sys2Proof/Machine/Assembler.lean ====
section
/-! DEFINITION. The assembler of spec/30_encoding.md R50 and R51: a line of a listing, its expansion to commands, and the
text form of a line. A text is a list of characters. -/

namespace Sys2Proof.Machine

/-- A line of a listing: a command, the directive RESET (R50), or a pseudo-instruction (R51). -/
inductive Line where
  | encB (n : Nat)
  | decC (n : Nat)
  | encEnd
  | decEnd
  | reset
  | encMsg (bytes : List Nat)
  | decMsg (text : List Nat)
  | encPad
  deriving DecidableEq, Repr

/-- A line is well formed when every operand is an `imm8`. -/
def Line.wf : Line → Bool
  | .encB n => imm8Ok n
  | .decC n => imm8Ok n
  | .encEnd => true
  | .decEnd => true
  | .reset => true
  | .encMsg bs => bs.all imm8Ok
  | .decMsg t => t.all imm8Ok
  | .encPad => true

/-- The event of one command, by its canonical word: the only one the assembler emits (R45). -/
def commandEvent (i : Instr) : Event := .command (Sys2Proof.encode i)

/-- The events of a line (R50, R51). -/
def Line.expand : Line → List Event
  | .encB n => [commandEvent (.encB (BitVec.ofNat 8 n))]
  | .decC n => [commandEvent (.decC (BitVec.ofNat 8 n))]
  | .encEnd => [commandEvent .encEnd]
  | .decEnd => [commandEvent .decEnd]
  | .reset => [.reset]
  | .encMsg bs => bs.map (fun n => commandEvent (.encB (BitVec.ofNat 8 n))) ++ [commandEvent .encEnd]
  | .decMsg t => t.map (fun n => commandEvent (.decC (BitVec.ofNat 8 n))) ++ [commandEvent .decEnd]
  | .encPad => [commandEvent (.encB Config.pad)]

/-- A listing of well-formed lines in port order; an ill-formed line is refused. -/
def assemble (ls : List Line) : Option (List Event) :=
  if ls.all Line.wf then some (ls.flatMap Line.expand) else none

/-- A space or a tab. -/
def isBlankChar (c : Char) : Bool := c.toNat == 32 || c.toNat == 9

/-- A printable US-ASCII character, taken as the codes 32 to 126. DESIGN CHOICE, safe: R50 speaks of the printable character
without a list. Log entry 7. -/
def isPrintable (c : Char) : Bool := 32 ≤ c.toNat && c.toNat ≤ 126

/-- The text without the blanks at its front. -/
def skipBlanks (t : List Char) : List Char := t.dropWhile isBlankChar

/-- Nothing more stands on the line but blanks and a comment, which a `;` starts (R50). -/
def atLineEnd (t : List Char) : Bool :=
  match skipBlanks t with
  | [] => true
  | c :: _ => c == ';'

/-- The value of a decimal or hexadecimal digit. -/
def digitValue (base : Nat) (c : Char) : Option Nat :=
  let n := c.toNat
  let v := if 48 ≤ n && n ≤ 57 then n - 48
    else if 65 ≤ n && n ≤ 70 then n - 55
    else if 97 ≤ n && n ≤ 102 then n - 87
    else base
  if v < base then some v else none

/-- The number that the digits at the front spell, `acc` before them, and the rest. -/
def readDigits (base acc : Nat) : List Char → Nat × List Char
  | [] => (acc, [])
  | c :: t =>
    match digitValue base c with
    | some d => readDigits base (base * acc + d) t
    | none => (acc, c :: t)

/-- A number with at least one digit. -/
def readNumber (base : Nat) (t : List Char) : Option (Nat × List Char) :=
  match t with
  | [] => none
  | c :: _ => (digitValue base c).map fun _ => readDigits base 0 t

/-- An `imm8`: decimal, 0x.. or 'c', the US-ASCII code of c (R50). -/
def readImm8 : List Char → Option (Nat × List Char)
  | '\'' :: c :: '\'' :: t => if isPrintable c then some (c.toNat, t) else none
  | '0' :: 'x' :: t => readNumber 16 t
  | t => readNumber 10 t

/-- The codes of a string up to its closing quote, and the rest (R51). R51 does not say which characters a string may hold.
DESIGN CHOICE, safe: those of codes 32 to 126 but the quote, and a string with any other character (a tab, a control code, a
code of 127 or more) is refused. Log entry 7. -/
def readString : List Char → Option (List Nat × List Char)
  | [] => none
  | c :: t =>
    if c == '"' then some ([], t)
    else if isPrintable c then (readString t).map fun r => (c.toNat :: r.1, r.2)
    else none

/-- The numbers of a byte list up to its closing bracket, at most `fuel` of them (R51). -/
def readItems : Nat → List Char → Option (List Nat × List Char)
  | 0, _ => none
  | fuel + 1, t =>
    match readImm8 (skipBlanks t) with
    | none => none
    | some (n, t) =>
      match skipBlanks t with
      | ',' :: t => (readItems fuel t).map fun r => (n :: r.1, r.2)
      | ']' :: t => some ([n], t)
      | _ => none

/-- The operand of a pseudo-instruction: a string, or a byte list. -/
def readMessage (bytesToo : Bool) : List Char → Option (List Nat × List Char)
  | '"' :: t => readString t
  | '[' :: t =>
    if bytesToo then
      match skipBlanks t with
      | ']' :: t => some ([], t)
      | t => readItems t.length t
    else none
  | _ => none

/-- The mnemonic at the front of a line, and the rest. -/
def readMnemonic (t : List Char) : List Char × List Char :=
  t.span fun c => !(isBlankChar c || c == ';')

/-- A line whose operand has been read: it stands if nothing more follows. -/
def finishLine {α : Type} (mk : α → Line) (r : Option (α × List Char)) : Option Line :=
  match r with
  | some (v, t) => if atLineEnd t then some (mk v) else none
  | none => none

/-- One line of text: `some none` for an empty line or a comment, `none` for a text that is no line (R50, R51). -/
def parseLine (text : List Char) : Option (Option Line) :=
  let t := skipBlanks text
  if atLineEnd t then some none
  else
    let m := (readMnemonic t).1
    let rest := skipBlanks (readMnemonic t).2
    let line :=
      if m = ['E', 'N', 'C', '.', 'B'] then finishLine .encB (readImm8 rest)
      else if m = ['D', 'E', 'C', '.', 'C'] then finishLine .decC (readImm8 rest)
      else if m = ['E', 'N', 'C', '.', 'E', 'N', 'D'] then finishLine (fun _ => .encEnd) (some ((), rest))
      else if m = ['D', 'E', 'C', '.', 'E', 'N', 'D'] then finishLine (fun _ => .decEnd) (some ((), rest))
      else if m = ['R', 'E', 'S', 'E', 'T'] then finishLine (fun _ => .reset) (some ((), rest))
      else if m = ['E', 'N', 'C', '.', 'M', 'S', 'G'] then finishLine .encMsg (readMessage true rest)
      else if m = ['D', 'E', 'C', '.', 'M', 'S', 'G'] then finishLine .decMsg (readMessage false rest)
      else if m = ['E', 'N', 'C', '.', 'P', 'A', 'D'] then finishLine (fun _ => .encPad) (some ((), rest))
      else none
    line.map some

/-- A listing, line by line, as the events it stands for. -/
def assembleText (lines : List (List Char)) : Option (List Event) :=
  match lines.mapM parseLine with
  | some ls => assemble (ls.filterMap id)
  | none => none

end Sys2Proof.Machine
end

