-- ==== Sys2Proof/Machine/Codec.lean ====
section
/-! DEFINITION. The reference functions: `encode` and `decode` of a whole sequence (spec/40_encode.md R54 to R58,
spec/41_decode.md R66 to R70) and the helpers they are written with (spec/42_bit_helpers.md R81 to R85). They are no
commands (spec/30_encoding.md R52); R61 and R74 bind the two units to them. -/

namespace Sys2Proof.Machine.Codec

/-- `toBits(value, width)`: item k is `(value div 2^(width-1-k)) mod 2` (R81). -/
def toBits (value width : Nat) : List Bool :=
  (List.range width).map fun k => value / 2 ^ (width - 1 - k) % 2 == 1

/-- `val(r)`: the sum of `r[k] * 2^(n-1-k)` over the run (R83). -/
def val : List Bool → Nat
  | [] => 0
  | b :: r => b.toNat * 2 ^ r.length + val r

/-- The pad count `p(n) = (3 - n mod 3) mod 3` (R85). -/
def padCount (n : Nat) : Nat := (Config.grpBytes - n % Config.grpBytes) % Config.grpBytes

/-- The consecutive whole runs of `n` bits of a bit sequence, run j being `B[nj .. nj+n)` (R56, R68). -/
def runs (n : Nat) (B : List Bool) : List (List Bool) :=
  (List.range (B.length / n)).map fun j => (B.drop (n * j)).take n

/-- Step 1 of encode, padding of the input bytes (R54). -/
def pad3 (x : List Byte) : List Byte := x ++ List.replicate (padCount x.length) Config.pad

/-- Step 2 of encode, bit expansion (R55). -/
def bits8 (y : List Byte) : List Bool := y.flatMap fun b => toBits b.toNat 8

/-- Step 3 of encode, grouping in runs of 6 bits (R56). -/
def values6 (B : List Bool) : List Code := (runs 6 B).map fun r => BitVec.ofNat 6 (val r)

/-- Step 4 of encode, alphabet mapping (R57). -/
def mapAlpha (V : List Code) : List Byte := V.map alpha

/-- `encode(x)`, a total function (R54 to R58). -/
def encode (x : List Byte) : List Byte := mapAlpha (values6 (bits8 (pad3 x)))

/-- Step 1 of decode, reverse lookup (R66). -/
def codes (t : List Byte) : List Code := t.map revCode

/-- Step 2 of decode: the 8-bit expansion of each code with its two highest bits discarded (R67). -/
def bits6 (V : List Code) : List Bool := V.flatMap fun v => (toBits v.toNat 8).drop 2

/-- Step 3 of decode, regrouping in runs of 8 bits (R68). An incomplete last run makes no byte (spec/20_memory.md R37;
DEDUCED, safe: log entry 9). -/
def values8 (B : List Bool) : List Byte := (runs 8 B).map fun r => BitVec.ofNat 8 (val r)

/-- The bytes that the characters of a text complete. -/
def completedBytes (t : List Byte) : List Byte := values8 (bits6 (codes t))

/-- The domain of decode: alphabet characters only, and a length that is a multiple of 4 (R69). -/
def inDomain (t : List Byte) : Bool := t.all revValid && t.length % Config.grpSyms == 0

/-- `decode(t)`: no value outside the domain (R66 to R70). -/
def decode (t : List Byte) : Option (List Byte) :=
  if inDomain t then some (completedBytes t) else none

end Sys2Proof.Machine.Codec
end

