-- ==== Sys2Proof/Machine/Flags.lean ====
section
/-! DEFINITION. The status outputs: wires that show the state, with no address and no side effect on a read
(spec/30_encoding.md R48, R49). B64C has no arithmetic flag (spec/10_state.md R21). -/

namespace Sys2Proof.Machine

/-- The STATUS word: DEC_PHASE in bits 7:6, ENC_PHASE in 5:4, zero in 3, DEC_CAUSE in 2:1, DEC_FAULT in 0 (R48). -/
def State.status (s : State) : BitVec 8 :=
  s.decPhase ++ s.encPhase ++ 0#1 ++ s.decCause ++ BitVec.ofBool s.decFault

/-- The output line FAULT, which carries STATUS[0] (R48, spec/60_exceptions.md R92). -/
def State.faultLine (s : State) : Bool := s.status.getLsbD 0

/-- The output ERR_CHAR (R49). -/
def State.errCharPort (s : State) : Byte := s.errChar

/-- The output ERR_POS (R49). -/
def State.errPosPort (s : State) : Nat := s.errPos

end Sys2Proof.Machine
end

