-- ==== Sys2Proof/Safety.lean ====
section
/-! DEFINITION. The invariants of spec/10_state.md R27, the words that may stand in the histories
(spec/30_encoding.md R47), and what a good end of a run is (spec/70_reset_and_hazards.md R111). -/

namespace Sys2Proof.Machine

/-- ENC: the phase is 0, 1 or 2 (R27 item 1), and the residue holds no bit that is not pending (R27 item 2). -/
abbrev State.EncInv (s : State) : Prop :=
  s.encPhase ≠ 3 ∧ (s.encPhase = 0 → s.encRes = 0) ∧ (s.encPhase = 1 → s.encRes.extractLsb' 2 2 = 0)

/-- DEC: the residue holds no bit that is not pending (R27 item 4). -/
abbrev State.DecInv (s : State) : Prop :=
  (s.decPhase = 0 → s.decRes = 0) ∧ (s.decPhase = 2 → s.decRes.extractLsb' 4 2 = 0)
    ∧ (s.decPhase = 3 → s.decRes.extractLsb' 2 4 = 0)

/-- The fault registers: without a fault they are 0 (R27 item 5); with one, the cause is one of the two and the
character fits it (spec/60_exceptions.md R88). -/
abbrev State.FaultInv (s : State) : Prop :=
  (s.decFault = false → s.decCause = 0 ∧ s.errChar = 0x00 ∧ s.errPos = 0)
    ∧ (s.decFault = true →
      (s.decCause = causeInvalidCharacter ∧ revValid s.errChar = false)
        ∨ (s.decCause = causeTruncatedInput ∧ s.errChar = 0x00 ∧ s.decPhase ≠ 0))

/-- POS_WIDTH is at least 1 (spec/00_scope.md R6), the two position registers fit it (R18, R23), and the decoder's phase
is its position modulo 4, or modulo 2 where POS_WIDTH = 1 (R27 item 6). -/
abbrev State.PosInv (s : State) : Prop :=
  1 ≤ s.posWidth ∧ s.decPos < 2 ^ s.posWidth ∧ s.errPos < 2 ^ s.posWidth
    ∧ (s.decFault = false →
      (2 ≤ s.posWidth → s.decPhase.toNat = s.decPos % 4) ∧ s.decPhase.toNat % 2 = s.decPos % 2)

/-- All invariants of the registers. -/
abbrev State.Inv (s : State) : Prop := s.EncInv ∧ s.DecInv ∧ s.FaultInv ∧ s.PosInv

/-- A word of ENC_OUT is the EOM word or a data word with an alphabet character (R47). -/
abbrev EncWordOk (w : OutWord) : Prop := w = eomWord ∨ ∃ v : Code, w = dataWord (alpha v)

/-- A word of DEC_OUT is the EOM word or a data word (R47). -/
abbrev DecWordOk (w : OutWord) : Prop := w = eomWord ∨ ∃ b : Byte, w = dataWord b

/-- Every word of the two histories may stand there. -/
abbrev State.OutInv (s : State) : Prop := (∀ w ∈ s.encOut, EncWordOk w) ∧ ∀ w ∈ s.decOut, DecWordOk w

/-- The events after the last reset. -/
def afterLastReset (es : List Event) : List Event :=
  (es.reverse.takeWhile fun e => e != .reset).reverse

/-- The last command of a unit after the last reset, if there is one. -/
def lastCommand (unit : Instr → Bool) (es : List Event) : Option Instr :=
  (((afterLastReset es).filterMap Event.instr?).filter unit).getLast?

/-- A run: a finite sequence of events that begins with a reset (R111). -/
abbrev IsRun (es : List Event) : Prop := es.head? = some .reset

/-- The end of a run is good: (a) no decode fault; (b) the last command of each unit since the last reset, if there is
one, is the unit's END (R111). The condition (b) is on the events, not on the registers. -/
abbrev GoodEnd (es : List Event) (t : State) : Prop :=
  t.decFault = false
    ∧ (lastCommand Instr.isEnc es = none ∨ lastCommand Instr.isEnc es = some .encEnd)
    ∧ (lastCommand Instr.isDec es = none ∨ lastCommand Instr.isDec es = some .decEnd)

/-- Every register of R13 but the histories holds its reset value (R25). -/
abbrev State.RegistersReset (s : State) : Prop :=
  s.encPhase = 0 ∧ s.encRes = 0 ∧ s.decPhase = 0 ∧ s.decRes = 0 ∧ s.decPos = 0
    ∧ s.decFault = false ∧ s.decCause = 0 ∧ s.errChar = 0x00 ∧ s.errPos = 0

end Sys2Proof.Machine
end

