-- ==== Sys2Proof/Certificates/Slice0/Obligations.lean ====
section
/-! DEFINITION. The statements about B64C that the provers settle. Each docstring names the rule of spec/ it formalises. -/

open Sys2Proof Sys2Proof.Machine

/-! ### Command words (spec/30_encoding.md) -/

/-- R42, R43, R46 on words of spec/95_test_vectors.md T9 and of the assembler's example (R50). -/
def Obligations.SpecWordsDecode : Prop :=
  decode 0x000 = .encB 0x00 ∧ decode 0x03D = .encB 0x3D ∧ decode 0x0FF = .encB 0xFF
    ∧ decode 0x100 = .decC 0x00 ∧ decode 0x154 = .decC 0x54 ∧ decode 0x1FF = .decC 0xFF
    ∧ decode 0x200 = .encEnd ∧ decode 0x2FF = .encEnd ∧ decode 0x300 = .decEnd ∧ decode 0x301 = .decEnd

/-- R46: a word spells the command of a row when `w & mask = match`. -/
def Obligations.WordSpellsItsRow : Prop :=
  ∀ w : CommandWord,
    (w &&& 0x300 = 0x000 ↔ decode w = .encB (w.extractLsb' 0 8))
      ∧ (w &&& 0x300 = 0x100 ↔ decode w = .decC (w.extractLsb' 0 8))
      ∧ (w &&& 0x300 = 0x200 ↔ decode w = .encEnd)
      ∧ (w &&& 0x300 = 0x300 ↔ decode w = .decEnd)

/-- R45: every one of the 1024 command words decodes; the data field of an END word is ignored, in the decoding and in the
effect; the canonical words are 0x200 and 0x300, and the assembler emits canonical words only. -/
def Obligations.EndDataIgnored : Prop :=
  (∀ w : Nat, w < 1024 → ∃ i, decodeNat w = .ok i)
    ∧ (∀ d : Byte, decode (0b10#2 ++ d) = .encEnd ∧ decode (0b11#2 ++ d) = .decEnd)
    ∧ (∀ (d d' : Byte) (s : State),
        applyEvent (.command (0b10#2 ++ d)) s = applyEvent (.command (0b10#2 ++ d')) s
          ∧ applyEvent (.command (0b11#2 ++ d)) s = applyEvent (.command (0b11#2 ++ d')) s)
    ∧ encode .encEnd = 0x200 ∧ encode .decEnd = 0x300
    ∧ ∀ (l : Line) (w : CommandWord), .command w ∈ l.expand → isCanonical w = true

/-- Decode and encode agree: every command, with every operand, is read back from its word, which is canonical
(R42, R43, R45). The other direction: a word is its command's word exactly when it is canonical (R45). -/
def Obligations.DecodeAndEncodeAgree : Prop :=
  (∀ i : Instr, i.wf = true → decode (encode i) = i ∧ isCanonical (encode i) = true)
    ∧ ∀ w : CommandWord, encode (decode w) = w ↔ isCanonical w = true

/-- R51: each pseudo-instruction expands to commands, and to nothing else; the bytes of a string operand are the codes of its
characters. Which characters a string may hold is the model's choice: log entry 7. -/
def Obligations.PseudoInstructionsExpand : Prop :=
  (∀ bs : List Byte,
      (Line.encMsg (bs.map BitVec.toNat)).expand = bs.map (fun b => .command (0b00#2 ++ b)) ++ [.command 0x200])
    ∧ (∀ t : List Byte,
      (Line.decMsg (t.map BitVec.toNat)).expand = t.map (fun c => .command (0b01#2 ++ c)) ++ [.command 0x300])
    ∧ Line.encPad.expand = [.command 0x03D] ∧ Line.encPad.expand = (Line.encB 0x3D).expand
    ∧ (Line.encMsg []).expand = Line.encEnd.expand ∧ (Line.decMsg []).expand = Line.decEnd.expand
    ∧ ∀ cs rest : List Char, (∀ c ∈ cs, isPrintable c = true ∧ c ≠ '"') →
      readString (cs ++ '"' :: rest) = some (cs.map Char.toNat, rest)

/-! ### The step -/

/-- R40: a step takes the first command of the port, and is exec of the command its word decodes to, on the state with
that word taken from the port. -/
def Obligations.StepRunsDecodedCommand : Prop :=
  ∀ (s : State) (w : CommandWord) (es : List Event),
    s.port = .command w :: es → s.wasReset = true → step s = exec (decode w) { s with port := es }

/-- A table word put on the port is the next command to run, on the state as it was (R40, R42). -/
def Obligations.FetchedTableWordRuns : Prop :=
  ∀ (s : State) (nbits w : Nat) (i : Instr),
    decodeTableWord nbits w = some i → s.wasReset = true → step (s.withFetchWord nbits w) = exec i s

/-- R101: reset writes every register but the two histories to its value of R25, and both units together. R102: it takes
nothing back and appends nothing; after the first reset both histories are empty. R103, its last sentence: a reset when
every register holds its reset value changes nothing at all. -/
def Obligations.StepTakesReset : Prop :=
  (∀ s : State, s.wasReset = true → s.RegistersReset → applyEvent .reset s = .next s)
  ∧ ∀ (s : State) (es : List Event), s.port = .reset :: es →
    (s.wasReset = true → step s = .next
      { s with
        port := es, encPhase := 0, encRes := 0b0000, decPhase := 0, decRes := 0b000000, decPos := 0
        decFault := false, decCause := 0, errChar := 0x00, errPos := 0 })
    ∧ (s.wasReset = false → ∃ t, step s = .next t ∧ t.RegistersReset ∧ t.encOut = [] ∧ t.decOut = []
        ∧ t.port = es ∧ t.posWidth = s.posWidth ∧ t.wasReset = true)

/-- A block that gets no command keeps its state (R100, power states). That this is a step is the model's choice: log
entry 1. -/
def Obligations.StepWaitsOnEmptyPort : Prop :=
  ∀ s : State, s.port = [] → step s = .next s

/-- A command before the first reset is refused (R102, R104; that the model keeps a field for it is its choice: log
entry 3). -/
def Obligations.CommandBeforeFirstResetRefused : Prop :=
  ∀ (s : State) (w : CommandWord) (es : List Event),
    s.port = .command w :: es → s.wasReset = false → step s = .refused .commandBeforeFirstReset

/-- No command reads or writes what is pending on the port: nothing a command does changes what a later one means (R41). -/
def Obligations.CommandsLeaveThePort : Prop :=
  ∀ (i : Instr) (s t : State) (es : List Event), exec i s = .next t →
    t.port = s.port ∧ exec i { s with port := es } = .next { t with port := es }

/-- R40 item 1: as many steps as there are events are the composition of the single effects, in port order. -/
def Obligations.StepsComposeInPortOrder : Prop :=
  ∀ (es rest : List Event) (s : State),
    Host.Core.run Sys2Proof.core es.length { s with port := es ++ rest } = runEvents es { s with port := rest }

/-! ### The encoder -/

/-- R59: ENC.B by phase, with everything it leaves unchanged: the result is the state but for the three fields written. -/
def Obligations.EncBByPhase : Prop :=
  ∀ (b : Byte) (s : State),
    (s.encPhase = 0 → exec (.encB b) s = .next
      { s with
        encOut := s.encOut ++ [0#1 ++ alpha (b.extractLsb' 2 6)]
        encRes := (b.extractLsb' 0 2).setWidth 4, encPhase := 1 })
    ∧ (s.encPhase = 1 → exec (.encB b) s = .next
      { s with
        encOut := s.encOut ++ [0#1 ++ alpha (s.encRes.extractLsb' 0 2 ++ b.extractLsb' 4 4)]
        encRes := b.extractLsb' 0 4, encPhase := 2 })
    ∧ (s.encPhase = 2 → exec (.encB b) s = .next
      { s with
        encOut := s.encOut ++ [0#1 ++ alpha (s.encRes ++ b.extractLsb' 6 2), 0#1 ++ alpha (b.extractLsb' 0 6)]
        encRes := 0b0000, encPhase := 0 })

/-- R60: ENC.END by phase, with everything it leaves unchanged; 0x030 is `0`, 0x039 is `9`, 0x100 is EOM. Where R27 item 2
holds it is the padding loop that R60 gives first, which ends at phase 0. At phase 0 with a nonzero residue, which R27 rules
out, the two forms of R60 differ: that the residue becomes 0 there is the model's reading, DEDUCED in log entry 5. -/
def Obligations.EncEndByPhase : Prop :=
  ∀ s : State,
    (s.encPhase = 0 → exec .encEnd s = .next
      { s with encOut := s.encOut ++ [0x100], encRes := 0b0000, encPhase := 0 })
    ∧ (s.encPhase = 1 → exec .encEnd s = .next
      { s with
        encOut := s.encOut ++ [0#1 ++ alpha (s.encRes.extractLsb' 0 2 ++ 0b0011#4), 0x030, 0x039, 0x100]
        encRes := 0b0000, encPhase := 0 })
    ∧ (s.encPhase = 2 → exec .encEnd s = .next
      { s with
        encOut := s.encOut ++ [0#1 ++ alpha (s.encRes ++ 0b00#2), 0x039, 0x100]
        encRes := 0b0000, encPhase := 0 })
    ∧ (s.encPhase ≠ 3 → (s.encPhase = 0 → s.encRes = 0) →
        exec .encEnd s = encEndByLoop s ∧ ∃ t, encPadLoop 2 s = .next t ∧ t.encPhase = 0)

/-- R59: the phase 3, which cannot occur, has no arm. The model stops there by name: its own choice, log entry 4. -/
def Obligations.EncoderStopsAtPhaseThree : Prop :=
  ∀ (b : Byte) (s : State), s.encPhase = 3 →
    exec (.encB b) s = .fault .encPhaseThree ∧ exec .encEnd s = .fault .encPhaseThree

/-- The frame of the ENC commands (R13, R59, R60): no DEC register, no fault register and no word of DEC_OUT changes. -/
def Obligations.EncoderFrame : Prop :=
  ∀ (i : Instr) (s t : State), i.isEnc = true → exec i s = .next t →
    t.decPhase = s.decPhase ∧ t.decRes = s.decRes ∧ t.decPos = s.decPos ∧ t.decFault = s.decFault
      ∧ t.decCause = s.decCause ∧ t.errChar = s.errChar ∧ t.errPos = s.errPos ∧ t.decOut = s.decOut
      ∧ t.posWidth = s.posWidth ∧ t.wasReset = s.wasReset

/-- R96: the encoder runs on, whatever the DEC state is. Two states that agree on the ENC part give next states that
agree on it, for every ENC command. -/
def Obligations.EncoderIgnoresDecoder : Prop :=
  ∀ (i : Instr) (s u t : State), i.isEnc = true →
    s.encPhase = u.encPhase → s.encRes = u.encRes → s.encOut = u.encOut → exec i s = .next t →
    ∃ v, exec i u = .next v ∧ v.encPhase = t.encPhase ∧ v.encRes = t.encRes ∧ v.encOut = t.encOut

/-- R91: the encoder never faults. In a state with a legal phase (R27 item 1) each of its commands answers a next state,
which has a legal phase again. -/
def Obligations.EncoderAlwaysCompletes : Prop :=
  ∀ (i : Instr) (s : State), i.isEnc = true → s.encPhase ≠ 3 → ∃ t, exec i s = .next t ∧ t.encPhase ≠ 3

/-! ### The decoder -/

/-- R71: DEC.C in all its cases, with everything it leaves unchanged. -/
def Obligations.DecCByCases : Prop :=
  ∀ (c : Byte) (s : State),
    (s.decFault = true → exec (.decC c) s = .next s)
    ∧ (s.decFault = false → (rev c).getLsbD 6 = false → exec (.decC c) s = .next
        { s with decFault := true, decCause := 1, errChar := c, errPos := s.decPos })
    ∧ ∀ v : Code, s.decFault = false → rev c = 1#1 ++ v →
      (s.decPhase = 0 → exec (.decC c) s = .next
        { s with decRes := v, decPhase := 1, decPos := (s.decPos + 1) % 2 ^ s.posWidth })
      ∧ (s.decPhase = 1 → exec (.decC c) s = .next
        { s with
          decOut := s.decOut ++ [0#1 ++ (s.decRes ++ v.extractLsb' 4 2)]
          decRes := (v.extractLsb' 0 4).setWidth 6, decPhase := 2, decPos := (s.decPos + 1) % 2 ^ s.posWidth })
      ∧ (s.decPhase = 2 → exec (.decC c) s = .next
        { s with
          decOut := s.decOut ++ [0#1 ++ (s.decRes.extractLsb' 0 4 ++ v.extractLsb' 2 4)]
          decRes := (v.extractLsb' 0 2).setWidth 6, decPhase := 3, decPos := (s.decPos + 1) % 2 ^ s.posWidth })
      ∧ (s.decPhase = 3 → exec (.decC c) s = .next
        { s with
          decOut := s.decOut ++ [0#1 ++ (s.decRes.extractLsb' 0 2 ++ v)]
          decRes := 0b000000, decPhase := 0, decPos := (s.decPos + 1) % 2 ^ s.posWidth })

/-- R72: DEC.END in all its cases, with everything it leaves unchanged. -/
def Obligations.DecEndByCases : Prop :=
  ∀ s : State,
    (s.decFault = true → exec .decEnd s = .next s)
    ∧ (s.decFault = false → s.decPhase ≠ 0 → exec .decEnd s = .next
        { s with decFault := true, decCause := 2, errChar := 0x00, errPos := s.decPos })
    ∧ (s.decFault = false → s.decPhase = 0 → exec .decEnd s = .next
        { s with decOut := s.decOut ++ [0x100], decPos := 0 })

/-- R88 and R94: a command that sets DEC_FAULT is a DEC.C outside the alphabet or a DEC.END in the middle of a group, it
writes exactly the four fault registers, and each of the two does so. -/
def Obligations.FaultEntry : Prop :=
  (∀ (i : Instr) (s t : State), exec i s = .next t → s.decFault = false → t.decFault = true →
    (∃ c, i = .decC c ∧ revValid c = false
      ∧ t = { s with decFault := true, decCause := 1, errChar := c, errPos := s.decPos })
    ∨ (i = .decEnd ∧ (s.decPhase = 1 ∨ s.decPhase = 2 ∨ s.decPhase = 3)
      ∧ t = { s with decFault := true, decCause := 2, errChar := 0x00, errPos := s.decPos }))
  ∧ (∀ (c : Byte) (s : State), s.decFault = false → revValid c = false →
      ∃ t, exec (.decC c) s = .next t ∧ t.decFault = true)
  ∧ ∀ s : State, s.decFault = false → (s.decPhase = 1 ∨ s.decPhase = 2 ∨ s.decPhase = 3) →
      ∃ t, exec .decEnd s = .next t ∧ t.decFault = true

/-- R73: a faulted decoder takes DEC commands from the port and does nothing; an ENC command does the same whatever
DEC_FAULT is; a state with DEC_FAULT = 1 is no good end of a run; only a reset ends this. -/
def Obligations.FaultedDecoderDoesNothing : Prop :=
  (∀ (i : Instr) (s : State), i.isDec = true → s.decFault = true → exec i s = .next s)
    ∧ (∀ (w : CommandWord) (es : List Event) (s : State), s.port = .command w :: es → s.wasReset = true →
        (decode w).isDec = true → s.decFault = true → step s = .next { s with port := es })
    ∧ (∀ (i : Instr) (s t : State) (f : Bool), i.isEnc = true → exec i s = .next t →
        exec i { s with decFault := f } = .next { t with decFault := f })
    ∧ (∀ (es : List Event) (s : State), s.decFault = true → ¬ GoodEnd es s)
    ∧ ∀ (es : List Event) (s : State), s.port = .reset :: es → ∃ t, step s = .next t ∧ t.decFault = false

/-- R97: the fault registers keep their values until reset, which clears the whole block. -/
def Obligations.FaultStaysUntilReset : Prop :=
  ∀ s t : State, s.decFault = true → step s = .next t →
    (s.port.head? ≠ some .reset → t.decFault = true ∧ t.decCause = s.decCause ∧ t.errChar = s.errChar
      ∧ t.errPos = s.errPos)
    ∧ (s.port.head? = some .reset → t.RegistersReset)

/-- The frame of the DEC commands (R13, R71, R72): no ENC register and no word of ENC_OUT changes. -/
def Obligations.DecoderFrame : Prop :=
  ∀ (i : Instr) (s t : State), i.isDec = true → exec i s = .next t →
    t.encPhase = s.encPhase ∧ t.encRes = s.encRes ∧ t.encOut = s.encOut
      ∧ t.posWidth = s.posWidth ∧ t.wasReset = s.wasReset

/-- The decoder does not depend on the encoder (R13, R107). Two states that agree on the DEC part give next states that
agree on it, for every DEC command. -/
def Obligations.DecoderIgnoresEncoder : Prop :=
  ∀ (i : Instr) (s u : State), i.isDec = true → s.posWidth = u.posWidth →
    s.decPhase = u.decPhase → s.decRes = u.decRes → s.decPos = u.decPos → s.decFault = u.decFault →
    s.decCause = u.decCause → s.errChar = u.errChar → s.errPos = u.errPos → s.decOut = u.decOut →
    ∃ t v, exec i s = .next t ∧ exec i u = .next v
      ∧ t.decPhase = v.decPhase ∧ t.decRes = v.decRes ∧ t.decPos = v.decPos ∧ t.decFault = v.decFault
      ∧ t.decCause = v.decCause ∧ t.errChar = v.errChar ∧ t.errPos = v.errPos ∧ t.decOut = v.decOut

/-- R87: the position register has no effect on any output word, on the phase, or on whether a fault is raised; only
ERR_POS reads it. -/
def Obligations.PositionReachesOnlyErrPos : Prop :=
  ∀ (i : Instr) (s t : State) (pos width : Nat), exec i s = .next t →
    ∃ v, exec i { s with decPos := pos, posWidth := width } = .next v
      ∧ v.encPhase = t.encPhase ∧ v.encRes = t.encRes ∧ v.encOut = t.encOut
      ∧ v.decPhase = t.decPhase ∧ v.decRes = t.decRes ∧ v.decOut = t.decOut
      ∧ v.decFault = t.decFault ∧ v.decCause = t.decCause ∧ v.errChar = t.errChar

/-- R16 and R18: the phase counts the characters taken modulo 4, the position counts them modulo 2^POS_WIDTH. -/
def Obligations.DecoderCountsCharacters : Prop :=
  ∀ (text : List Byte) (s : State), (∀ c ∈ text, revValid c = true) →
    s.decFault = false → s.decPhase = 0 → s.decPos = 0 →
    ∃ t, runCommands (text.map .decC) s = .next t ∧ t.decFault = false
      ∧ t.decPhase.toNat = text.length % 4 ∧ t.decPos = text.length % 2 ^ s.posWidth

/-! ### Tables (spec/20_memory.md) -/

/-- R28: the formula of ALPHA, and its table of 64 entries. -/
def Obligations.AlphaIsTheTable : Prop :=
  (∀ v : Code, (alpha v).toNat =
      if v.toNat ≤ 25 then 0x41 + v.toNat
      else if v.toNat ≤ 51 then 0x61 + (v.toNat - 26)
      else if v.toNat ≤ 61 then 0x30 + (v.toNat - 52)
      else if v.toNat = 62 then 0x2B else 0x2F)
    ∧ (List.range 64).map (fun n => (alpha (BitVec.ofNat 6 n)).toNat) =
      [0x41, 0x42, 0x43, 0x44, 0x45, 0x46, 0x47, 0x48, 0x49, 0x4A, 0x4B, 0x4C, 0x4D, 0x4E, 0x4F, 0x50]
      ++ [0x51, 0x52, 0x53, 0x54, 0x55, 0x56, 0x57, 0x58, 0x59, 0x5A, 0x61, 0x62, 0x63, 0x64, 0x65, 0x66]
      ++ [0x67, 0x68, 0x69, 0x6A, 0x6B, 0x6C, 0x6D, 0x6E, 0x6F, 0x70, 0x71, 0x72, 0x73, 0x74, 0x75, 0x76]
      ++ [0x77, 0x78, 0x79, 0x7A, 0x30, 0x31, 0x32, 0x33, 0x34, 0x35, 0x36, 0x37, 0x38, 0x39, 0x2B, 0x2F]

/-- R29: no two entries of ALPHA are equal, 0x3D is none of them, and bit 7 of every entry is 0. -/
def Obligations.AlphaEntriesDistinct : Prop :=
  (∀ v w : Code, alpha v = alpha w → v = w) ∧ ∀ v : Code, alpha v ≠ 0x3D ∧ (alpha v).getLsbD 7 = false

/-- R31: REV[ALPHA[v]] = 1 ++ v, REV[c] = 0 for every c that is no entry of ALPHA, and exactly 64 entries are valid; and
the ranges of the rule's table. -/
def Obligations.RevIsTheTable : Prop :=
  (∀ v : Code, rev (alpha v) = 1#1 ++ v)
    ∧ (∀ c : Byte, (∀ v : Code, alpha v ≠ c) → rev c = 0#1 ++ 0b000000#6)
    ∧ ((List.range 256).filter fun n => (rev (BitVec.ofNat 8 n)).getLsbD 6).length = 64
    ∧ ∀ c : Byte, (rev c).toNat =
        if c.toNat ≤ 0x2A then 0
        else if c.toNat = 0x2B then 64 + 62
        else if c.toNat ≤ 0x2E then 0
        else if c.toNat = 0x2F then 64 + 63
        else if c.toNat ≤ 0x39 then 64 + (c.toNat - 0x30 + 52)
        else if c.toNat ≤ 0x40 then 0
        else if c.toNat ≤ 0x5A then 64 + (c.toNat - 0x41)
        else if c.toNat ≤ 0x60 then 0
        else if c.toNat ≤ 0x7A then 64 + (c.toNat - 0x61 + 26)
        else 0

/-- R32 and R33: `=`, white space, `-`, `_`, every control character and every code of 0x80 or more have no code, and the two
tables are inverse on the alphabet. -/
def Obligations.RevRefusesAndInverts : Prop :=
  (∀ c ∈ ([0x3D, 0x20, 0x09, 0x0D, 0x0A, 0x2D, 0x5F] : List Byte), revValid c = false)
    ∧ (∀ c : Byte, c < 0x20 ∨ 0x7F ≤ c → revValid c = false)
    ∧ (∀ v : Code, revCode (alpha v) = v) ∧ ∀ c : Byte, revValid c = true → alpha (revCode c) = c

/-- R35: the group identities keep every bit in its place, and invert each other. -/
def Obligations.GroupIdentities : Prop :=
  (∀ b0 b1 b2 : Byte,
      (groupSyms b0 b1 b2).flatMap (fun v => Codec.toBits v.toNat 6) = Codec.bits8 [b0, b1, b2])
    ∧ (∀ s0 s1 s2 s3 : Code,
      Codec.bits8 (groupBytes s0 s1 s2 s3) = [s0, s1, s2, s3].flatMap fun v => Codec.toBits v.toNat 6)
    ∧ (∀ b0 b1 b2 : Byte, ∃ s0 s1 s2 s3,
      groupSyms b0 b1 b2 = [s0, s1, s2, s3] ∧ groupBytes s0 s1 s2 s3 = [b0, b1, b2])
    ∧ ∀ s0 s1 s2 s3 : Code, ∃ b0 b1 b2,
      groupBytes s0 s1 s2 s3 = [b0, b1, b2] ∧ groupSyms b0 b1 b2 = [s0, s1, s2, s3]

/-! ### Status outputs -/

/-- R48: the STATUS word field by field, 0x00 after reset; DEC_CAUSE 3 and ENC_PHASE 3 never appear where the invariant
holds, which every step keeps. -/
def Obligations.StatusWordFields : Prop :=
  (∀ s : State,
      s.status.getLsbD 0 = s.decFault ∧ s.status.extractLsb' 1 2 = s.decCause ∧ s.status.getLsbD 3 = false
        ∧ s.status.extractLsb' 4 2 = s.encPhase ∧ s.status.extractLsb' 6 2 = s.decPhase
        ∧ s.faultLine = s.status.getLsbD 0)
    ∧ State.reset.status = 0x00
    ∧ ∀ s : State, s.Inv → s.status.extractLsb' 1 2 ≠ 3 ∧ s.status.extractLsb' 4 2 ≠ 3

/-- R49 and R53: without a fault ERR_CHAR and ERR_POS are 0; DEC_FAULT and a cause other than 0 come together. -/
def Obligations.StatusFaultFieldsAgree : Prop :=
  ∀ s : State, s.Inv →
    (s.faultLine = false → s.errCharPort = 0 ∧ s.errPosPort = 0) ∧ (s.faultLine = true ↔ s.status.extractLsb' 1 2 ≠ 0)

/-! ### Bit helpers (spec/42_bit_helpers.md) -/

/-- R81: toBits gives `width` items, item k being `(value div 2^(width-1-k)) mod 2`, which is `value[width-1-k]`. -/
def Obligations.ToBitsFormula : Prop :=
  ∀ value width : Nat, (Codec.toBits value width).length = width
    ∧ ∀ k, k < width → (Codec.toBits value width)[k]? = some (value / 2 ^ (width - 1 - k) % 2 == 1)
      ∧ (Codec.toBits value width)[k]? = some (value.testBit (width - 1 - k))

/-- R83: the value of a run is the sum of its bits with their weights, below 2^n. -/
def Obligations.ValIsTheWeightedSum : Prop :=
  ∀ r : List Bool,
    Codec.val r = (Finset.univ.sum fun k : Fin r.length => (r[k]).toNat * 2 ^ (r.length - 1 - k.val))
      ∧ Codec.val r < 2 ^ r.length

/-- R84: toBits and val are inverse, the discard of two bits is exact, and concatenation of runs is that of values. -/
def Obligations.ToBitsAndValInverse : Prop :=
  (∀ n v : Nat, v < 2 ^ n → Codec.val (Codec.toBits v n) = v)
    ∧ (∀ r : List Bool, Codec.toBits (Codec.val r) r.length = r)
    ∧ (∀ v : Nat, v < 64 → Codec.toBits v 8 = [false, false] ++ Codec.toBits v 6)
    ∧ ∀ r q : List Bool, Codec.val (r ++ q) = Codec.val r * 2 ^ q.length + Codec.val q

/-- R85: the pad count, and what it is on the unit when ENC.END arrives. The rule's last clause, the number of pad bytes that
ENC.END feeds, is not stated here: EncEndByPhase says which symbols it sends. -/
def Obligations.PadCountCompletesTheGroup : Prop :=
  (∀ n : Nat,
      (n % 3 = 0 → Codec.padCount n = 0) ∧ (n % 3 = 1 → Codec.padCount n = 2) ∧ (n % 3 = 2 → Codec.padCount n = 1)
        ∧ (n + Codec.padCount n) % 3 = 0 ∧ ∀ m, n ≤ m → m % 3 = 0 → n + Codec.padCount n ≤ m)
    ∧ ∀ (x : List Byte) (s : State), s.encPhase = 0 →
      ∃ t, runCommands (x.map .encB) s = .next t ∧ t.encPhase.toNat = x.length % 3
        ∧ Codec.padCount x.length = (3 - t.encPhase.toNat) % 3

/-! ### The reference functions -/

/-- R67: the discard of the two highest bits leaves the 6-bit expansion of each code. -/
def Obligations.DiscardLeavesSixBits : Prop :=
  ∀ V : List Code, Codec.bits6 V = V.flatMap (fun v => Codec.toBits v.toNat 6)
    ∧ (Codec.bits6 V).length = 6 * V.length

/-- R62: the length of encode in its two forms, a multiple of 4, and the number of words of a message on the unit. -/
def Obligations.EncodeLength : Prop :=
  ∀ x : List Byte,
    (Codec.encode x).length = (x.length + Codec.padCount x.length) / 3 * 4 ∧ (Codec.encode x).length % 4 = 0
      ∧ (Codec.encode x).length = ((x.length + Codec.padCount x.length) * 8 + 5) / 6
      ∧ ∀ s : State, s.encPhase = 0 → ∃ (t : State) (ws : List Byte), runCommands (x.map .encB ++ [.encEnd]) s = .next t
        ∧ t.encOut = s.encOut ++ ws.map dataWord ++ [eomWord]
        ∧ ws.length = (x.length + Codec.padCount x.length) / 3 * 4

/-- R63, the function: every character of encode is an entry of ALPHA, and none is `=`. -/
def Obligations.EncodeStaysInTheAlphabet : Prop :=
  ∀ x : List Byte, ∀ c ∈ Codec.encode x, (∃ v : Code, c = alpha v) ∧ c ≠ 0x3D

/-- R64 and R77: the empty message, as a function and on the units. -/
def Obligations.EmptyMessages : Prop :=
  Codec.encode [] = [] ∧ Codec.decode [] = some []
    ∧ (∀ s : State, s.encPhase = 0 → ∃ t, exec .encEnd s = .next t ∧ t.encOut = s.encOut ++ [0x100])
    ∧ ∀ s : State, s.decPhase = 0 → s.decFault = false →
      ∃ t, exec .decEnd s = .next t ∧ t.decOut = s.decOut ++ [0x100]

/-- R65: padding is not told apart from data, with the rule's instances `Ma`, `Ma=` and `=`, `==`, `===`. -/
def Obligations.EncodeOfPaddedInput : Prop :=
  (∀ x : List Byte, Codec.encode x = Codec.encode (Codec.pad3 x))
    ∧ Codec.encode [0x4D, 0x61] = Codec.encode [0x4D, 0x61, 0x3D]
    ∧ Codec.encode [0x3D] = Codec.encode [0x3D, 0x3D] ∧ Codec.encode [0x3D] = Codec.encode [0x3D, 0x3D, 0x3D]

/-- R75: the round trip with the padding artifact, as functions, and on the unit: a text that ENC produced never faults
DEC. -/
def Obligations.RoundTripAddsThePadding : Prop :=
  ∀ x : List Byte, Codec.inDomain (Codec.encode x) = true ∧ Codec.decode (Codec.encode x) = some (Codec.pad3 x)
    ∧ (Codec.decode (Codec.encode x) = some x ↔ x.length % 3 = 0)
    ∧ ∀ s : State, s.decPhase = 0 → s.decRes = 0 → s.decPos = 0 → s.decFault = false →
      ∃ t, runCommands ((Codec.encode x).map .decC ++ [.decEnd]) s = .next t ∧ t.decFault = false
        ∧ t.decOut = s.decOut ++ (Codec.pad3 x).map dataWord ++ [eomWord]

/-- R76 (the function) and R78: the length of decode, and encode inverts decode. -/
def Obligations.EncodeInvertsDecode : Prop :=
  ∀ t y : List Byte, Codec.decode t = some y → y.length = t.length / 4 * 3 ∧ Codec.encode y = t

/-! ### The units compute the functions -/

/-- R61: a message through ENC, with any DEC commands mixed in, appends encode of the message and the EOM word, and leaves
ENC at phase 0 with residue 0. -/
def Obligations.EncoderComputesEncode : Prop :=
  ∀ (x : List Byte) (is : List Instr) (s : State), s.encPhase = 0 → s.encRes = 0 →
    is.filter Instr.isEnc = x.map .encB ++ [.encEnd] →
    ∃ t, runCommands is s = .next t
      ∧ t.encOut = s.encOut ++ (Codec.encode x).map dataWord ++ [eomWord] ∧ t.encPhase = 0 ∧ t.encRes = 0

/-- R74 item 1: a text of the domain through DEC, with any ENC commands mixed in, appends decode of the text and the EOM
word, and leaves DEC in its reset state. The ENC commands complete because ENC_PHASE is legal (R27 item 1). -/
def Obligations.DecoderComputesDecode : Prop :=
  ∀ (text y : List Byte) (is : List Instr) (s : State), s.encPhase ≠ 3 →
    s.decPhase = 0 → s.decRes = 0 → s.decPos = 0 → s.decFault = false → text.length < 2 ^ s.posWidth →
    is.filter Instr.isDec = text.map .decC ++ [.decEnd] → Codec.decode text = some y →
    ∃ t, runCommands is s = .next t ∧ t.decOut = s.decOut ++ y.map dataWord ++ [eomWord]
      ∧ t.decFault = false ∧ t.decPhase = 0 ∧ t.decRes = 0 ∧ t.decPos = 0

/-- R74 item 2: a text with a character outside the alphabet raises InvalidCharacter at the first one; the words appended
are those of the whole groups before it and of the characters after them, and no EOM word. -/
def Obligations.DecoderReportsInvalidCharacter : Prop :=
  ∀ (text : List Byte) (n : Nat) (c : Byte) (is : List Instr) (s : State), s.encPhase ≠ 3 →
    s.decPhase = 0 → s.decRes = 0 → s.decPos = 0 → s.decFault = false → text.length < 2 ^ s.posWidth →
    is.filter Instr.isDec = text.map .decC ++ [.decEnd] →
    text[n]? = some c → revValid c = false → (∀ d ∈ text.take n, revValid d = true) →
    ∃ t y, runCommands is s = .next t ∧ t.decFault = true ∧ t.decCause = 1 ∧ t.errChar = c ∧ t.errPos = n
      ∧ t.decOut = s.decOut ++ y.map dataWord ∧ y = Codec.completedBytes (text.take n)
      ∧ y.length = n / 4 * 3 + (n % 4 - 1)
      ∧ Codec.decode (text.take (4 * (n / 4))) = some (y.take (n / 4 * 3))

/-- R74 item 3: a text of alphabet characters whose length is no multiple of 4 raises TruncatedInput at its end. -/
def Obligations.DecoderReportsTruncatedInput : Prop :=
  ∀ (text : List Byte) (is : List Instr) (s : State), s.encPhase ≠ 3 →
    s.decPhase = 0 → s.decRes = 0 → s.decPos = 0 → s.decFault = false → text.length < 2 ^ s.posWidth →
    is.filter Instr.isDec = text.map .decC ++ [.decEnd] →
    (∀ d ∈ text, revValid d = true) → text.length % 4 ≠ 0 →
    ∃ t y, runCommands is s = .next t ∧ t.decFault = true ∧ t.decCause = 2 ∧ t.errChar = 0x00
      ∧ t.errPos = text.length ∧ t.decOut = s.decOut ++ y.map dataWord ∧ y = Codec.completedBytes text
      ∧ y.length = text.length / 4 * 3 + (text.length % 4 - 1)
      ∧ Codec.decode (text.take (4 * (text.length / 4))) = some (y.take (text.length / 4 * 3))

/-! ### Invariants and whole-machine rules -/

/-- R27: the invariants of the registers hold after every step, from every state that meets them. -/
def Obligations.StepKeepsTheInvariants : Prop :=
  ∀ s t : State, s.Inv → step s = .next t → t.Inv

/-- R27 and R47 at reset, for every POS_WIDTH of at least 1. -/
def Obligations.ResetMeetsTheInvariants : Prop :=
  State.reset = State.resetAt 32 ∧ ∀ w : Nat, 1 ≤ w → (State.resetAt w).Inv ∧ (State.resetAt w).OutInv
    ∧ (State.resetAt w).RegistersReset ∧ (State.resetAt w).encOut = [] ∧ (State.resetAt w).decOut = []

/-- R47 and R63: every step keeps the histories free of words that never appear; a data word of ENC_OUT holds an alphabet
character. -/
def Obligations.StepKeepsTheHistoriesLegal : Prop :=
  ∀ s t : State, s.OutInv → step s = .next t →
    t.OutInv ∧ (∀ w ∈ t.encOut, w.toNat ≤ 0x100 ∧ w ≠ 0x03D) ∧ ∀ w ∈ t.decOut, w.toNat ≤ 0x100

/-- Where the invariants hold, every command answers a next state, and they hold in it (R80, R91, R27). -/
def Obligations.EveryCommandCompletes : Prop :=
  ∀ (i : Instr) (s : State), s.Inv → ∃ t, exec i s = .next t ∧ t.Inv

/-- R27 items 3, 7 and 8: after an END command that does not fault its unit's registers are at their reset values. The
ENC clause has no premise: that ENC_RES is 0 also after phase 0 with a nonzero residue, which R27 rules out, is the model's
reading, DEDUCED in log entry 5. -/
def Obligations.EndLeavesResetState : Prop :=
  (∀ s t : State, exec .encEnd s = .next t → t.encPhase = 0 ∧ t.encRes = 0)
    ∧ ∀ s t : State, s.Inv → exec .decEnd s = .next t → t.decFault = false →
      t.decPhase = 0 ∧ t.decRes = 0 ∧ t.decPos = 0 ∧ t.decCause = 0 ∧ t.errChar = 0 ∧ t.errPos = 0

/-- R26: a command appends to the history of its own unit only: ENC.B one or two words, ENC.END one, three or four, DEC.C
none or one, DEC.END none or one. -/
def Obligations.HistoriesGrowByFewWords : Prop :=
  ∀ (i : Instr) (s t : State), exec i s = .next t →
    ∃ ws vs, t.encOut = s.encOut ++ ws ∧ t.decOut = s.decOut ++ vs
      ∧ match i with
        | .encB _ => (ws.length = 1 ∨ ws.length = 2) ∧ vs = []
        | .encEnd => (ws.length = 1 ∨ ws.length = 3 ∨ ws.length = 4) ∧ vs = []
        | .decC _ => ws = [] ∧ vs.length ≤ 1
        | .decEnd => ws = [] ∧ vs.length ≤ 1

/-- R102: no step after the first reset takes a word back; no step changes POS_WIDTH (R6). -/
def Obligations.StepTakesNothingBack : Prop :=
  ∀ s t : State, step s = .next t → t.posWidth = s.posWidth
    ∧ (s.wasReset = true → t.wasReset = true ∧ s.encOut <+: t.encOut ∧ s.decOut <+: t.decOut)

/-- R107: the words of ENC_OUT are those of the sequence with the DEC commands deleted, the words of DEC_OUT those of the
sequence with the ENC commands deleted; resets stay. -/
def Obligations.InterleavingIsFree : Prop :=
  ∀ (es : List Event) (s t : State), runEvents es s = .next t →
    (∃ u, runEvents (es.filter fun e => !e.isDec) s = .next u ∧ u.encOut = t.encOut)
      ∧ ∃ u, runEvents (es.filter fun e => !e.isEnc) s = .next u ∧ u.decOut = t.decOut

/-- R106: without an END between them two messages are one. -/
def Obligations.MessagesWithoutEndRunTogether : Prop :=
  ∀ (x y : List Byte) (s : State), s.encPhase = 0 → s.encRes = 0 →
    ∃ t, runCommands (x.map .encB ++ (y.map .encB ++ [.encEnd])) s = .next t
      ∧ t.encOut = s.encOut ++ (Codec.encode (x ++ y)).map dataWord ++ [eomWord]

/-- R111: at a good end of a run every register holds its reset value, and STATUS is 0x00. -/
def Obligations.GoodEndIsResetState : Prop :=
  ∀ (es : List Event) (s t : State), IsRun es → runEvents es s = .next t → GoodEnd es t →
    t.RegistersReset ∧ t.status = 0x00
end

