-- ==== Sys2Proof/Laws/Operands.lean ====
section
/-! SUPPORT. Bit by bit: the concatenations of the group identities, at the width the model gives them. -/

namespace Sys2Proof.Machine

/-- Bit `i` of `x ++ y`, 6 and 2 bits, as a byte. -/
theorem getLsbD_append62 (x : BitVec 6) (y : BitVec 2) (i : Nat) :
    BitVec.getLsbD (w := 8) (x ++ y) i = if i < 2 then y.getLsbD i else x.getLsbD (i - 2) := by
  rw [show BitVec.getLsbD (w := 8) (x ++ y) i = BitVec.getLsbD (w := 6 + 2) (x ++ y) i from rfl,
    BitVec.getLsbD_append]

/-- Bit `i` of `x ++ y`, 4 and 4 bits, as a byte. -/
theorem getLsbD_append44 (x : BitVec 4) (y : BitVec 4) (i : Nat) :
    BitVec.getLsbD (w := 8) (x ++ y) i = if i < 4 then y.getLsbD i else x.getLsbD (i - 4) := by
  rw [show BitVec.getLsbD (w := 8) (x ++ y) i = BitVec.getLsbD (w := 4 + 4) (x ++ y) i from rfl,
    BitVec.getLsbD_append]

/-- Bit `i` of `x ++ y`, 2 and 6 bits, as a byte. -/
theorem getLsbD_append26 (x : BitVec 2) (y : BitVec 6) (i : Nat) :
    BitVec.getLsbD (w := 8) (x ++ y) i = if i < 6 then y.getLsbD i else x.getLsbD (i - 6) := by
  rw [show BitVec.getLsbD (w := 8) (x ++ y) i = BitVec.getLsbD (w := 2 + 6) (x ++ y) i from rfl,
    BitVec.getLsbD_append]

/-- Bit `i` of `x ++ y`, 2 and 4 bits, as a code. -/
theorem getLsbD_append24 (x : BitVec 2) (y : BitVec 4) (i : Nat) :
    BitVec.getLsbD (w := 6) (x ++ y) i = if i < 4 then y.getLsbD i else x.getLsbD (i - 4) := by
  rw [show BitVec.getLsbD (w := 6) (x ++ y) i = BitVec.getLsbD (w := 2 + 4) (x ++ y) i from rfl,
    BitVec.getLsbD_append]

/-- Bit `i` of `x ++ y`, 4 and 2 bits, as a code. -/
theorem getLsbD_append42 (x : BitVec 4) (y : BitVec 2) (i : Nat) :
    BitVec.getLsbD (w := 6) (x ++ y) i = if i < 2 then y.getLsbD i else x.getLsbD (i - 2) := by
  rw [show BitVec.getLsbD (w := 6) (x ++ y) i = BitVec.getLsbD (w := 4 + 2) (x ++ y) i from rfl,
    BitVec.getLsbD_append]

/-- The low bits of a residue that was extended with zeros are the bits that were put there (R15, R17). -/
theorem encRes_low2 : ∀ v : BitVec 2, (v.setWidth 4 : BitVec 4).extractLsb' 0 2 = v := by decide
theorem decRes_low4 : ∀ v : BitVec 4, (v.setWidth 6 : BitVec 6).extractLsb' 0 4 = v := by decide
theorem decRes_low2 : ∀ v : BitVec 2, (v.setWidth 6 : BitVec 6).extractLsb' 0 2 = v := by decide

/-- The high bits of such a residue are 0 (R15, R17). -/
theorem encRes_high2 : ∀ v : BitVec 2, (v.setWidth 4 : BitVec 4).extractLsb' 2 2 = 0 := by decide
theorem decRes_high2 : ∀ v : BitVec 4, (v.setWidth 6 : BitVec 6).extractLsb' 4 2 = 0 := by decide
theorem decRes_high4 : ∀ v : BitVec 2, (v.setWidth 6 : BitVec 6).extractLsb' 2 4 = 0 := by decide

end Sys2Proof.Machine
end

