-- ==== Sys2Proof/Laws/Codec.lean ====
section
/-! SUPPORT. The small lemmas of the reference functions: what one whole run, and one whole group, in front of a sequence
gives. -/

namespace Sys2Proof.Machine.Codec

@[simp] theorem toBits_length (v n : Nat) : (toBits v n).length = n := by simp [toBits]

/-- The bits of a value, its top bit first. -/
theorem toBits_succ (v n : Nat) : toBits v (n + 1) = (v / 2 ^ n % 2 == 1) :: toBits v n := by
  simp only [toBits, List.range_succ_eq_map, List.map_cons, List.map_map]
  congr 1
  apply List.map_congr_left
  intro k hk
  simp only [List.mem_range] at hk
  simp only [Function.comp]
  congr 4
  omega

/-- The value of the low `n` bits. -/
theorem val_toBits_mod (v n : Nat) : val (toBits v n) = v % 2 ^ n := by
  induction n with
  | zero => simp [toBits, val, Nat.mod_one]
  | succ n ih =>
    rw [toBits_succ, val, ih, toBits_length, Nat.pow_succ, Nat.mod_mul]
    rcases Nat.mod_two_eq_zero_or_one (v / 2 ^ n) with h | h <;> simp [h]
    ring

/-- The bits of a concatenation of values are the bits of its parts. -/
theorem toBits_append {m n : Nat} (x : BitVec m) (y : BitVec n) :
    toBits (x ++ y).toNat (m + n) = toBits x.toNat m ++ toBits y.toNat n := by
  have item : ∀ v w j : Nat, ∀ h : j < (toBits v w).length, (toBits v w)[j] = v.testBit (w - 1 - j) := by
    intro v w j h
    simp only [toBits, List.getElem_map, List.getElem_range, Nat.testBit_eq_decide_div_mod_eq]
    congr 1
  apply List.ext_getElem
  · simp
  · intro k h1 h2
    simp only [toBits_length] at h1
    rw [List.getElem_append]
    split
    · next h =>
      rw [item, item, ← BitVec.getLsbD, ← BitVec.getLsbD, BitVec.getLsbD_append]
      simp only [toBits_length] at h
      rw [if_neg (by omega)]
      congr 1
      omega
    · next h =>
      rw [item, item, ← BitVec.getLsbD, ← BitVec.getLsbD, BitVec.getLsbD_append]
      simp only [toBits_length] at h ⊢
      rw [if_pos (by omega)]
      congr 1
      omega

/-- A whole run in front is the first run. -/
theorem runs_append {n : Nat} (hn : 0 < n) (A B : List Bool) (hA : A.length = n) :
    runs n (A ++ B) = A :: runs n B := by
  subst hA
  simp only [runs, List.length_append, Nat.add_div_left _ hn, List.range_succ_eq_map, List.map_cons, List.map_map]
  congr 1
  · simp
  · apply List.map_congr_left
    intro j _
    simp [Function.comp, Nat.mul_succ, Nat.add_comm]

/-- Fewer bits than a run make no run. -/
theorem runs_short {n : Nat} (B : List Bool) (hB : B.length < n) : runs n B = [] := by
  simp [runs, Nat.div_eq_of_lt hB]

theorem values6_append (v : Code) (B : List Bool) : values6 (toBits v.toNat 6 ++ B) = v :: values6 B := by
  unfold values6
  rw [runs_append (by decide) _ _ (by simp), List.map_cons, val_toBits_mod, Nat.mod_eq_of_lt v.isLt]
  simp

theorem values8_append (b : Byte) (B : List Bool) : values8 (toBits b.toNat 8 ++ B) = b :: values8 B := by
  unfold values8
  rw [runs_append (by decide) _ _ (by simp), List.map_cons, val_toBits_mod, Nat.mod_eq_of_lt b.isLt]
  simp

/-! The three places where a byte boundary falls in a group of bytes (spec/20_memory.md R35). -/

theorem bits_sym0 (b : Byte) :
    toBits b.toNat 8 = toBits (sym0 b).toNat 6 ++ toBits (b.extractLsb' 0 2).toNat 2 := by
  revert b
  decide

theorem bits_sym1 (r : BitVec 2) (b : Byte) :
    toBits r.toNat 2 ++ toBits b.toNat 8 = toBits (sym1 r b).toNat 6 ++ toBits (b.extractLsb' 0 4).toNat 4 := by
  have h : ∀ b : Byte,
      toBits b.toNat 8 = toBits (b.extractLsb' 4 4).toNat 4 ++ toBits (b.extractLsb' 0 4).toNat 4 := by decide
  rw [sym1, toBits_append (m := 2) (n := 4), List.append_assoc, ← h]

theorem bits_sym2 (r : BitVec 4) (b : Byte) :
    toBits r.toNat 4 ++ toBits b.toNat 8 = toBits (sym2 r b).toNat 6 ++ toBits (sym3 b).toNat 6 := by
  have h : ∀ b : Byte, toBits b.toNat 8 = toBits (b.extractLsb' 6 2).toNat 2 ++ toBits (sym3 b).toNat 6 := by decide
  rw [sym2, toBits_append (m := 4) (n := 2), List.append_assoc, ← h]

/-! The three places where a code boundary falls in a group of codes (R35). -/

theorem bits_byte0 (r v : Code) :
    toBits r.toNat 6 ++ toBits v.toNat 6 = toBits (byte0 r v).toNat 8 ++ toBits (v.extractLsb' 0 4).toNat 4 := by
  have h : ∀ v : Code,
      toBits v.toNat 6 = toBits (v.extractLsb' 4 2).toNat 2 ++ toBits (v.extractLsb' 0 4).toNat 4 := by decide
  rw [byte0, toBits_append (m := 6) (n := 2), List.append_assoc, ← h]

theorem bits_byte1 (r : BitVec 4) (v : Code) :
    toBits r.toNat 4 ++ toBits v.toNat 6 = toBits (byte1 r v).toNat 8 ++ toBits (v.extractLsb' 0 2).toNat 2 := by
  have h : ∀ v : Code,
      toBits v.toNat 6 = toBits (v.extractLsb' 2 4).toNat 4 ++ toBits (v.extractLsb' 0 2).toNat 2 := by decide
  rw [byte1, toBits_append (m := 4) (n := 4), List.append_assoc, ← h]

theorem bits_byte2 (r : BitVec 2) (v : Code) :
    toBits r.toNat 2 ++ toBits v.toNat 6 = toBits (byte2 r v).toNat 8 := by
  rw [byte2, toBits_append (m := 2) (n := 6)]

/-! encode, group by group. -/

theorem pad3_cons3 (b0 b1 b2 : Byte) (x : List Byte) : pad3 (b0 :: b1 :: b2 :: x) = b0 :: b1 :: b2 :: pad3 x := by
  simp only [pad3, List.cons_append, List.length_cons]
  congr 5
  simp only [padCount, Config.grpBytes]
  omega

theorem encode_nil : encode [] = [] := rfl

theorem encode_cons3 (b0 b1 b2 : Byte) (x : List Byte) :
    encode (b0 :: b1 :: b2 :: x) = (groupSyms b0 b1 b2).map alpha ++ encode x := by
  have h : bits8 (b0 :: b1 :: b2 :: pad3 x) =
      toBits (sym0 b0).toNat 6 ++ (toBits (sym1 (b0.extractLsb' 0 2) b1).toNat 6
        ++ (toBits (sym2 (b1.extractLsb' 0 4) b2).toNat 6 ++ (toBits (sym3 b2).toNat 6 ++ bits8 (pad3 x)))) := by
    simp only [bits8, List.flatMap_cons]
    rw [bits_sym0 b0, List.append_assoc, ← List.append_assoc (toBits _ 2), bits_sym1, List.append_assoc,
      ← List.append_assoc (toBits _ 4), bits_sym2, List.append_assoc]
  simp only [encode, pad3_cons3, h, values6_append, mapAlpha, groupSyms, List.map_cons, List.map_nil,
    List.cons_append, List.nil_append]

theorem encode_one (b : Byte) : encode [b] = (groupSyms b Config.pad Config.pad).map alpha := by
  have h : pad3 [b] = pad3 [b, Config.pad, Config.pad] := by
    simp [pad3, padCount, Config.grpBytes, List.replicate]
  rw [encode, h, ← encode, encode_cons3, encode_nil, List.append_nil]

theorem encode_two (b c : Byte) : encode [b, c] = (groupSyms b c Config.pad).map alpha := by
  have h : pad3 [b, c] = pad3 [b, c, Config.pad] := by simp [pad3, padCount, Config.grpBytes]
  rw [encode, h, ← encode, encode_cons3, encode_nil, List.append_nil]

/-- A property of all byte sequences, from the three ends and the step by a group of three. -/
theorem bytes_induction {P : List Byte → Prop} (nil : P []) (one : ∀ a, P [a]) (two : ∀ a b, P [a, b])
    (group : ∀ a b c x, P x → P (a :: b :: c :: x)) : ∀ x, P x
  | [] => nil
  | [a] => one a
  | [a, b] => two a b
  | a :: b :: c :: x => group a b c x (bytes_induction nil one two group x)

/-! The bytes that characters complete, group by group. -/

/-- The bits of the characters' codes, 6 each. -/
theorem completedBytes_eq (t : List Byte) :
    completedBytes t = values8 (t.flatMap fun c => toBits (revCode c).toNat 6) := by
  have h : ∀ v : Code, (toBits v.toNat 8).drop 2 = toBits v.toNat 6 := by decide
  simp only [completedBytes, bits6, codes, List.flatMap_map, h]

theorem completedBytes_nil : completedBytes [] = [] := rfl

theorem completedBytes_one (a : Byte) : completedBytes [a] = [] := by
  simp only [completedBytes_eq, List.flatMap_cons, List.flatMap_nil, List.append_nil]
  rw [values8, runs_short _ (by simp), List.map_nil]

theorem completedBytes_two (a b : Byte) : completedBytes [a, b] = [byte0 (revCode a) (revCode b)] := by
  simp only [completedBytes_eq, List.flatMap_cons, List.flatMap_nil, List.append_nil]
  rw [bits_byte0, values8_append, values8, runs_short _ (by simp), List.map_nil]

theorem completedBytes_three (a b c : Byte) :
    completedBytes [a, b, c] =
      [byte0 (revCode a) (revCode b), byte1 ((revCode b).extractLsb' 0 4) (revCode c)] := by
  simp only [completedBytes_eq, List.flatMap_cons, List.flatMap_nil, List.append_nil]
  rw [← List.append_assoc, bits_byte0, List.append_assoc, bits_byte1, values8_append, values8_append, values8,
    runs_short _ (by simp), List.map_nil]

theorem completedBytes_cons4 (a b c d : Byte) (t : List Byte) :
    completedBytes (a :: b :: c :: d :: t) =
      groupBytes (revCode a) (revCode b) (revCode c) (revCode d) ++ completedBytes t := by
  simp only [completedBytes_eq, List.flatMap_cons]
  rw [← List.append_assoc, bits_byte0, List.append_assoc, ← List.append_assoc (toBits _ 4), bits_byte1,
    List.append_assoc, ← List.append_assoc (toBits _ 2), bits_byte2, values8_append, values8_append, values8_append]
  rfl

/-- A property of all texts, from the four ends and the step by a group of four. -/
theorem text_induction {P : List Byte → Prop} (nil : P []) (one : ∀ a, P [a]) (two : ∀ a b, P [a, b])
    (three : ∀ a b c, P [a, b, c]) (group : ∀ a b c d x, P x → P (a :: b :: c :: d :: x)) : ∀ x, P x
  | [] => nil
  | [a] => one a
  | [a, b] => two a b
  | [a, b, c] => three a b c
  | a :: b :: c :: d :: x => group a b c d x (text_induction nil one two three group x)

end Sys2Proof.Machine.Codec
end

