-- ==== Sys2Proof/Laws/PerInstr.lean ====
section
/-! SUPPORT. What is said of every command as a piece of the encoding, one lemma per constructor of Instr. -/

namespace Sys2Proof.Laws.OpcodeRow

/-- The command's word has the match bits of its row under the row's mask, and its operand in the data field
(spec/30_encoding.md R42, R46). -/
def Statement (i : Instr) : Prop := encode i &&& opMask = i.matchBits ∧ dataField (encode i) = i.data

theorem encB (b : Byte) : Statement (.encB b) := by
  unfold Statement
  revert b
  decide

theorem decC (c : Byte) : Statement (.decC c) := by
  unfold Statement
  revert c
  decide

theorem encEnd : Statement .encEnd := by
  unfold Statement
  decide

theorem decEnd : Statement .decEnd := by
  unfold Statement
  decide

end Sys2Proof.Laws.OpcodeRow
end

