-- ==== Sys2Proof/Laws/State.lean ====
section
/-! SUPPORT. What each register write leaves in each field of State: one lemma per field per operation, all by rfl. -/

namespace Sys2Proof.Machine

/-! `emitEnc` -/

@[simp] theorem emitEnc_encPhase (v : Byte) (s : State) : (emitEnc v s).encPhase = s.encPhase := rfl
@[simp] theorem emitEnc_encRes (v : Byte) (s : State) : (emitEnc v s).encRes = s.encRes := rfl
@[simp] theorem emitEnc_decPhase (v : Byte) (s : State) : (emitEnc v s).decPhase = s.decPhase := rfl
@[simp] theorem emitEnc_decRes (v : Byte) (s : State) : (emitEnc v s).decRes = s.decRes := rfl
@[simp] theorem emitEnc_decPos (v : Byte) (s : State) : (emitEnc v s).decPos = s.decPos := rfl
@[simp] theorem emitEnc_decFault (v : Byte) (s : State) : (emitEnc v s).decFault = s.decFault := rfl
@[simp] theorem emitEnc_decCause (v : Byte) (s : State) : (emitEnc v s).decCause = s.decCause := rfl
@[simp] theorem emitEnc_errChar (v : Byte) (s : State) : (emitEnc v s).errChar = s.errChar := rfl
@[simp] theorem emitEnc_errPos (v : Byte) (s : State) : (emitEnc v s).errPos = s.errPos := rfl
@[simp] theorem emitEnc_encOut (v : Byte) (s : State) : (emitEnc v s).encOut = s.encOut ++ [dataWord v] := rfl
@[simp] theorem emitEnc_decOut (v : Byte) (s : State) : (emitEnc v s).decOut = s.decOut := rfl
@[simp] theorem emitEnc_port (v : Byte) (s : State) : (emitEnc v s).port = s.port := rfl
@[simp] theorem emitEnc_posWidth (v : Byte) (s : State) : (emitEnc v s).posWidth = s.posWidth := rfl
@[simp] theorem emitEnc_wasReset (v : Byte) (s : State) : (emitEnc v s).wasReset = s.wasReset := rfl

/-! `emitEncEom` -/

@[simp] theorem emitEncEom_encPhase (s : State) : (emitEncEom s).encPhase = s.encPhase := rfl
@[simp] theorem emitEncEom_encRes (s : State) : (emitEncEom s).encRes = s.encRes := rfl
@[simp] theorem emitEncEom_decPhase (s : State) : (emitEncEom s).decPhase = s.decPhase := rfl
@[simp] theorem emitEncEom_decRes (s : State) : (emitEncEom s).decRes = s.decRes := rfl
@[simp] theorem emitEncEom_decPos (s : State) : (emitEncEom s).decPos = s.decPos := rfl
@[simp] theorem emitEncEom_decFault (s : State) : (emitEncEom s).decFault = s.decFault := rfl
@[simp] theorem emitEncEom_decCause (s : State) : (emitEncEom s).decCause = s.decCause := rfl
@[simp] theorem emitEncEom_errChar (s : State) : (emitEncEom s).errChar = s.errChar := rfl
@[simp] theorem emitEncEom_errPos (s : State) : (emitEncEom s).errPos = s.errPos := rfl
@[simp] theorem emitEncEom_encOut (s : State) : (emitEncEom s).encOut = s.encOut ++ [eomWord] := rfl
@[simp] theorem emitEncEom_decOut (s : State) : (emitEncEom s).decOut = s.decOut := rfl
@[simp] theorem emitEncEom_port (s : State) : (emitEncEom s).port = s.port := rfl
@[simp] theorem emitEncEom_posWidth (s : State) : (emitEncEom s).posWidth = s.posWidth := rfl
@[simp] theorem emitEncEom_wasReset (s : State) : (emitEncEom s).wasReset = s.wasReset := rfl

/-! `emitDec` -/

@[simp] theorem emitDec_encPhase (v : Byte) (s : State) : (emitDec v s).encPhase = s.encPhase := rfl
@[simp] theorem emitDec_encRes (v : Byte) (s : State) : (emitDec v s).encRes = s.encRes := rfl
@[simp] theorem emitDec_decPhase (v : Byte) (s : State) : (emitDec v s).decPhase = s.decPhase := rfl
@[simp] theorem emitDec_decRes (v : Byte) (s : State) : (emitDec v s).decRes = s.decRes := rfl
@[simp] theorem emitDec_decPos (v : Byte) (s : State) : (emitDec v s).decPos = s.decPos := rfl
@[simp] theorem emitDec_decFault (v : Byte) (s : State) : (emitDec v s).decFault = s.decFault := rfl
@[simp] theorem emitDec_decCause (v : Byte) (s : State) : (emitDec v s).decCause = s.decCause := rfl
@[simp] theorem emitDec_errChar (v : Byte) (s : State) : (emitDec v s).errChar = s.errChar := rfl
@[simp] theorem emitDec_errPos (v : Byte) (s : State) : (emitDec v s).errPos = s.errPos := rfl
@[simp] theorem emitDec_encOut (v : Byte) (s : State) : (emitDec v s).encOut = s.encOut := rfl
@[simp] theorem emitDec_decOut (v : Byte) (s : State) : (emitDec v s).decOut = s.decOut ++ [dataWord v] := rfl
@[simp] theorem emitDec_port (v : Byte) (s : State) : (emitDec v s).port = s.port := rfl
@[simp] theorem emitDec_posWidth (v : Byte) (s : State) : (emitDec v s).posWidth = s.posWidth := rfl
@[simp] theorem emitDec_wasReset (v : Byte) (s : State) : (emitDec v s).wasReset = s.wasReset := rfl

/-! `emitDecEom` -/

@[simp] theorem emitDecEom_encPhase (s : State) : (emitDecEom s).encPhase = s.encPhase := rfl
@[simp] theorem emitDecEom_encRes (s : State) : (emitDecEom s).encRes = s.encRes := rfl
@[simp] theorem emitDecEom_decPhase (s : State) : (emitDecEom s).decPhase = s.decPhase := rfl
@[simp] theorem emitDecEom_decRes (s : State) : (emitDecEom s).decRes = s.decRes := rfl
@[simp] theorem emitDecEom_decPos (s : State) : (emitDecEom s).decPos = s.decPos := rfl
@[simp] theorem emitDecEom_decFault (s : State) : (emitDecEom s).decFault = s.decFault := rfl
@[simp] theorem emitDecEom_decCause (s : State) : (emitDecEom s).decCause = s.decCause := rfl
@[simp] theorem emitDecEom_errChar (s : State) : (emitDecEom s).errChar = s.errChar := rfl
@[simp] theorem emitDecEom_errPos (s : State) : (emitDecEom s).errPos = s.errPos := rfl
@[simp] theorem emitDecEom_encOut (s : State) : (emitDecEom s).encOut = s.encOut := rfl
@[simp] theorem emitDecEom_decOut (s : State) : (emitDecEom s).decOut = s.decOut ++ [eomWord] := rfl
@[simp] theorem emitDecEom_port (s : State) : (emitDecEom s).port = s.port := rfl
@[simp] theorem emitDecEom_posWidth (s : State) : (emitDecEom s).posWidth = s.posWidth := rfl
@[simp] theorem emitDecEom_wasReset (s : State) : (emitDecEom s).wasReset = s.wasReset := rfl

/-! `writeEnc` -/

@[simp] theorem writeEnc_encPhase (p : BitVec 2) (r : BitVec 4) (s : State) : (writeEnc p r s).encPhase = p := rfl
@[simp] theorem writeEnc_encRes (p : BitVec 2) (r : BitVec 4) (s : State) : (writeEnc p r s).encRes = r := rfl
@[simp] theorem writeEnc_decPhase (p : BitVec 2) (r : BitVec 4) (s : State) : (writeEnc p r s).decPhase = s.decPhase := rfl
@[simp] theorem writeEnc_decRes (p : BitVec 2) (r : BitVec 4) (s : State) : (writeEnc p r s).decRes = s.decRes := rfl
@[simp] theorem writeEnc_decPos (p : BitVec 2) (r : BitVec 4) (s : State) : (writeEnc p r s).decPos = s.decPos := rfl
@[simp] theorem writeEnc_decFault (p : BitVec 2) (r : BitVec 4) (s : State) : (writeEnc p r s).decFault = s.decFault := rfl
@[simp] theorem writeEnc_decCause (p : BitVec 2) (r : BitVec 4) (s : State) : (writeEnc p r s).decCause = s.decCause := rfl
@[simp] theorem writeEnc_errChar (p : BitVec 2) (r : BitVec 4) (s : State) : (writeEnc p r s).errChar = s.errChar := rfl
@[simp] theorem writeEnc_errPos (p : BitVec 2) (r : BitVec 4) (s : State) : (writeEnc p r s).errPos = s.errPos := rfl
@[simp] theorem writeEnc_encOut (p : BitVec 2) (r : BitVec 4) (s : State) : (writeEnc p r s).encOut = s.encOut := rfl
@[simp] theorem writeEnc_decOut (p : BitVec 2) (r : BitVec 4) (s : State) : (writeEnc p r s).decOut = s.decOut := rfl
@[simp] theorem writeEnc_port (p : BitVec 2) (r : BitVec 4) (s : State) : (writeEnc p r s).port = s.port := rfl
@[simp] theorem writeEnc_posWidth (p : BitVec 2) (r : BitVec 4) (s : State) : (writeEnc p r s).posWidth = s.posWidth := rfl
@[simp] theorem writeEnc_wasReset (p : BitVec 2) (r : BitVec 4) (s : State) : (writeEnc p r s).wasReset = s.wasReset := rfl

/-! `writeDec` -/

@[simp] theorem writeDec_encPhase (p : BitVec 2) (r : BitVec 6) (s : State) : (writeDec p r s).encPhase = s.encPhase := rfl
@[simp] theorem writeDec_encRes (p : BitVec 2) (r : BitVec 6) (s : State) : (writeDec p r s).encRes = s.encRes := rfl
@[simp] theorem writeDec_decPhase (p : BitVec 2) (r : BitVec 6) (s : State) : (writeDec p r s).decPhase = p := rfl
@[simp] theorem writeDec_decRes (p : BitVec 2) (r : BitVec 6) (s : State) : (writeDec p r s).decRes = r := rfl
@[simp] theorem writeDec_decPos (p : BitVec 2) (r : BitVec 6) (s : State) : (writeDec p r s).decPos = s.decPos := rfl
@[simp] theorem writeDec_decFault (p : BitVec 2) (r : BitVec 6) (s : State) : (writeDec p r s).decFault = s.decFault := rfl
@[simp] theorem writeDec_decCause (p : BitVec 2) (r : BitVec 6) (s : State) : (writeDec p r s).decCause = s.decCause := rfl
@[simp] theorem writeDec_errChar (p : BitVec 2) (r : BitVec 6) (s : State) : (writeDec p r s).errChar = s.errChar := rfl
@[simp] theorem writeDec_errPos (p : BitVec 2) (r : BitVec 6) (s : State) : (writeDec p r s).errPos = s.errPos := rfl
@[simp] theorem writeDec_encOut (p : BitVec 2) (r : BitVec 6) (s : State) : (writeDec p r s).encOut = s.encOut := rfl
@[simp] theorem writeDec_decOut (p : BitVec 2) (r : BitVec 6) (s : State) : (writeDec p r s).decOut = s.decOut := rfl
@[simp] theorem writeDec_port (p : BitVec 2) (r : BitVec 6) (s : State) : (writeDec p r s).port = s.port := rfl
@[simp] theorem writeDec_posWidth (p : BitVec 2) (r : BitVec 6) (s : State) : (writeDec p r s).posWidth = s.posWidth := rfl
@[simp] theorem writeDec_wasReset (p : BitVec 2) (r : BitVec 6) (s : State) : (writeDec p r s).wasReset = s.wasReset := rfl

/-! `advancePos` -/

@[simp] theorem advancePos_encPhase (s : State) : (advancePos s).encPhase = s.encPhase := rfl
@[simp] theorem advancePos_encRes (s : State) : (advancePos s).encRes = s.encRes := rfl
@[simp] theorem advancePos_decPhase (s : State) : (advancePos s).decPhase = s.decPhase := rfl
@[simp] theorem advancePos_decRes (s : State) : (advancePos s).decRes = s.decRes := rfl
@[simp] theorem advancePos_decPos (s : State) : (advancePos s).decPos = (s.decPos + 1) % 2 ^ s.posWidth := rfl
@[simp] theorem advancePos_decFault (s : State) : (advancePos s).decFault = s.decFault := rfl
@[simp] theorem advancePos_decCause (s : State) : (advancePos s).decCause = s.decCause := rfl
@[simp] theorem advancePos_errChar (s : State) : (advancePos s).errChar = s.errChar := rfl
@[simp] theorem advancePos_errPos (s : State) : (advancePos s).errPos = s.errPos := rfl
@[simp] theorem advancePos_encOut (s : State) : (advancePos s).encOut = s.encOut := rfl
@[simp] theorem advancePos_decOut (s : State) : (advancePos s).decOut = s.decOut := rfl
@[simp] theorem advancePos_port (s : State) : (advancePos s).port = s.port := rfl
@[simp] theorem advancePos_posWidth (s : State) : (advancePos s).posWidth = s.posWidth := rfl
@[simp] theorem advancePos_wasReset (s : State) : (advancePos s).wasReset = s.wasReset := rfl

/-! `clearPos` -/

@[simp] theorem clearPos_encPhase (s : State) : (clearPos s).encPhase = s.encPhase := rfl
@[simp] theorem clearPos_encRes (s : State) : (clearPos s).encRes = s.encRes := rfl
@[simp] theorem clearPos_decPhase (s : State) : (clearPos s).decPhase = s.decPhase := rfl
@[simp] theorem clearPos_decRes (s : State) : (clearPos s).decRes = s.decRes := rfl
@[simp] theorem clearPos_decPos (s : State) : (clearPos s).decPos = 0 := rfl
@[simp] theorem clearPos_decFault (s : State) : (clearPos s).decFault = s.decFault := rfl
@[simp] theorem clearPos_decCause (s : State) : (clearPos s).decCause = s.decCause := rfl
@[simp] theorem clearPos_errChar (s : State) : (clearPos s).errChar = s.errChar := rfl
@[simp] theorem clearPos_errPos (s : State) : (clearPos s).errPos = s.errPos := rfl
@[simp] theorem clearPos_encOut (s : State) : (clearPos s).encOut = s.encOut := rfl
@[simp] theorem clearPos_decOut (s : State) : (clearPos s).decOut = s.decOut := rfl
@[simp] theorem clearPos_port (s : State) : (clearPos s).port = s.port := rfl
@[simp] theorem clearPos_posWidth (s : State) : (clearPos s).posWidth = s.posWidth := rfl
@[simp] theorem clearPos_wasReset (s : State) : (clearPos s).wasReset = s.wasReset := rfl

/-! `raiseFault` -/

@[simp] theorem raiseFault_encPhase (k : BitVec 2) (c : Byte) (n : Nat) (s : State) : (raiseFault k c n s).encPhase = s.encPhase := rfl
@[simp] theorem raiseFault_encRes (k : BitVec 2) (c : Byte) (n : Nat) (s : State) : (raiseFault k c n s).encRes = s.encRes := rfl
@[simp] theorem raiseFault_decPhase (k : BitVec 2) (c : Byte) (n : Nat) (s : State) : (raiseFault k c n s).decPhase = s.decPhase := rfl
@[simp] theorem raiseFault_decRes (k : BitVec 2) (c : Byte) (n : Nat) (s : State) : (raiseFault k c n s).decRes = s.decRes := rfl
@[simp] theorem raiseFault_decPos (k : BitVec 2) (c : Byte) (n : Nat) (s : State) : (raiseFault k c n s).decPos = s.decPos := rfl
@[simp] theorem raiseFault_decFault (k : BitVec 2) (c : Byte) (n : Nat) (s : State) : (raiseFault k c n s).decFault = true := rfl
@[simp] theorem raiseFault_decCause (k : BitVec 2) (c : Byte) (n : Nat) (s : State) : (raiseFault k c n s).decCause = k := rfl
@[simp] theorem raiseFault_errChar (k : BitVec 2) (c : Byte) (n : Nat) (s : State) : (raiseFault k c n s).errChar = c := rfl
@[simp] theorem raiseFault_errPos (k : BitVec 2) (c : Byte) (n : Nat) (s : State) : (raiseFault k c n s).errPos = n := rfl
@[simp] theorem raiseFault_encOut (k : BitVec 2) (c : Byte) (n : Nat) (s : State) : (raiseFault k c n s).encOut = s.encOut := rfl
@[simp] theorem raiseFault_decOut (k : BitVec 2) (c : Byte) (n : Nat) (s : State) : (raiseFault k c n s).decOut = s.decOut := rfl
@[simp] theorem raiseFault_port (k : BitVec 2) (c : Byte) (n : Nat) (s : State) : (raiseFault k c n s).port = s.port := rfl
@[simp] theorem raiseFault_posWidth (k : BitVec 2) (c : Byte) (n : Nat) (s : State) : (raiseFault k c n s).posWidth = s.posWidth := rfl
@[simp] theorem raiseFault_wasReset (k : BitVec 2) (c : Byte) (n : Nat) (s : State) : (raiseFault k c n s).wasReset = s.wasReset := rfl

/-! `resetEvent` -/

@[simp] theorem resetEvent_encPhase (s : State) : (resetEvent s).encPhase = 0 := rfl
@[simp] theorem resetEvent_encRes (s : State) : (resetEvent s).encRes = 0 := rfl
@[simp] theorem resetEvent_decPhase (s : State) : (resetEvent s).decPhase = 0 := rfl
@[simp] theorem resetEvent_decRes (s : State) : (resetEvent s).decRes = 0 := rfl
@[simp] theorem resetEvent_decPos (s : State) : (resetEvent s).decPos = 0 := rfl
@[simp] theorem resetEvent_decFault (s : State) : (resetEvent s).decFault = false := rfl
@[simp] theorem resetEvent_decCause (s : State) : (resetEvent s).decCause = 0 := rfl
@[simp] theorem resetEvent_errChar (s : State) : (resetEvent s).errChar = 0 := rfl
@[simp] theorem resetEvent_errPos (s : State) : (resetEvent s).errPos = 0 := rfl
@[simp] theorem resetEvent_encOut (s : State) : (resetEvent s).encOut = if s.wasReset then s.encOut else [] := rfl
@[simp] theorem resetEvent_decOut (s : State) : (resetEvent s).decOut = if s.wasReset then s.decOut else [] := rfl
@[simp] theorem resetEvent_port (s : State) : (resetEvent s).port = s.port := rfl
@[simp] theorem resetEvent_posWidth (s : State) : (resetEvent s).posWidth = s.posWidth := rfl
@[simp] theorem resetEvent_wasReset (s : State) : (resetEvent s).wasReset = true := rfl

/-! `sendCommand` -/

@[simp] theorem sendCommand_encPhase (w : CommandWord) (s : State) : (sendCommand w s).encPhase = s.encPhase := rfl
@[simp] theorem sendCommand_encRes (w : CommandWord) (s : State) : (sendCommand w s).encRes = s.encRes := rfl
@[simp] theorem sendCommand_decPhase (w : CommandWord) (s : State) : (sendCommand w s).decPhase = s.decPhase := rfl
@[simp] theorem sendCommand_decRes (w : CommandWord) (s : State) : (sendCommand w s).decRes = s.decRes := rfl
@[simp] theorem sendCommand_decPos (w : CommandWord) (s : State) : (sendCommand w s).decPos = s.decPos := rfl
@[simp] theorem sendCommand_decFault (w : CommandWord) (s : State) : (sendCommand w s).decFault = s.decFault := rfl
@[simp] theorem sendCommand_decCause (w : CommandWord) (s : State) : (sendCommand w s).decCause = s.decCause := rfl
@[simp] theorem sendCommand_errChar (w : CommandWord) (s : State) : (sendCommand w s).errChar = s.errChar := rfl
@[simp] theorem sendCommand_errPos (w : CommandWord) (s : State) : (sendCommand w s).errPos = s.errPos := rfl
@[simp] theorem sendCommand_encOut (w : CommandWord) (s : State) : (sendCommand w s).encOut = s.encOut := rfl
@[simp] theorem sendCommand_decOut (w : CommandWord) (s : State) : (sendCommand w s).decOut = s.decOut := rfl
@[simp] theorem sendCommand_port (w : CommandWord) (s : State) : (sendCommand w s).port = .command w :: s.port := rfl
@[simp] theorem sendCommand_posWidth (w : CommandWord) (s : State) : (sendCommand w s).posWidth = s.posWidth := rfl
@[simp] theorem sendCommand_wasReset (w : CommandWord) (s : State) : (sendCommand w s).wasReset = s.wasReset := rfl

/-! The two raises are one operation with two causes (R94). -/

@[simp] theorem raiseInvalidCharacter_eq (c : Byte) (n : Nat) (s : State) :
    raiseInvalidCharacter c n s = raiseFault causeInvalidCharacter c n s := rfl
@[simp] theorem raiseTruncatedInput_eq (n : Nat) (s : State) :
    raiseTruncatedInput n s = raiseFault causeTruncatedInput 0x00 n s := rfl

/-! `State.resetAt` -/

@[simp] theorem resetAt_encPhase (w : Nat) : (State.resetAt w).encPhase = 0 := rfl
@[simp] theorem resetAt_encRes (w : Nat) : (State.resetAt w).encRes = 0 := rfl
@[simp] theorem resetAt_decPhase (w : Nat) : (State.resetAt w).decPhase = 0 := rfl
@[simp] theorem resetAt_decRes (w : Nat) : (State.resetAt w).decRes = 0 := rfl
@[simp] theorem resetAt_decPos (w : Nat) : (State.resetAt w).decPos = 0 := rfl
@[simp] theorem resetAt_decFault (w : Nat) : (State.resetAt w).decFault = false := rfl
@[simp] theorem resetAt_decCause (w : Nat) : (State.resetAt w).decCause = 0 := rfl
@[simp] theorem resetAt_errChar (w : Nat) : (State.resetAt w).errChar = 0 := rfl
@[simp] theorem resetAt_errPos (w : Nat) : (State.resetAt w).errPos = 0 := rfl
@[simp] theorem resetAt_encOut (w : Nat) : (State.resetAt w).encOut = [] := rfl
@[simp] theorem resetAt_decOut (w : Nat) : (State.resetAt w).decOut = [] := rfl
@[simp] theorem resetAt_port (w : Nat) : (State.resetAt w).port = [] := rfl
@[simp] theorem resetAt_posWidth (w : Nat) : (State.resetAt w).posWidth = w := rfl
@[simp] theorem resetAt_wasReset (w : Nat) : (State.resetAt w).wasReset = true := rfl

/-! `andThen` -/

@[simp] theorem andThen_next (s : State) (f : State → Result) : andThen (.next s) f = f s := rfl
@[simp] theorem andThen_fault (x : Fault) (f : State → Result) : andThen (.fault x) f = .fault x := rfl
@[simp] theorem andThen_refused (x : Refusal) (f : State → Result) : andThen (.refused x) f = .refused x := rfl

/-- A composition that answers a next state went through one. -/
theorem andThen_eq_next {r : Result} {f : State → Result} {t : State} :
    andThen r f = .next t ↔ ∃ u, r = .next u ∧ f u = .next t := by
  cases r <;> simp [andThen]

end Sys2Proof.Machine
end

