-- ==== Sys2Proof/Laws/Step.lean ====
section
/-! SUPPORT. What a step can do, said once, and the laws of sequences of commands, events and steps. -/

namespace Sys2Proof.Machine

/-- If a step answers next `t`, the port was empty and nothing changed, or a command was taken after the first reset, or a
reset was taken. -/
theorem step_cases {s t : State} (h : step s = .next t) :
    (s.port = [] ∧ t = s)
    ∨ (∃ w es, s.port = .command w :: es ∧ s.wasReset = true ∧ exec (decode w) { s with port := es } = .next t)
    ∨ (∃ es, s.port = .reset :: es ∧ t = resetEvent { s with port := es }) := by
  unfold step takeEvent at h
  cases hp : s.port with
  | nil =>
    simp only [hp] at h
    exact .inl ⟨rfl, by simpa using h.symm⟩
  | cons e es =>
    simp only [hp] at h
    cases e with
    | command w =>
      simp only [applyEvent] at h
      split at h
      · exact .inr (.inl ⟨w, es, rfl, ‹_›, h⟩)
      · cases h
    | reset => exact .inr (.inr ⟨es, rfl, by simpa [applyEvent] using h.symm⟩)

@[simp] theorem isEnc_command (w : CommandWord) : (Event.command w).isEnc = (decode w).isEnc := rfl
@[simp] theorem isDec_command (w : CommandWord) : (Event.command w).isDec = (decode w).isDec := rfl
@[simp] theorem isEnc_reset : Event.reset.isEnc = false := rfl
@[simp] theorem isDec_reset : Event.reset.isDec = false := rfl

/-- Commands one after another. -/
theorem runCommands_append (is js : List Instr) (s : State) :
    runCommands (is ++ js) s = andThen (runCommands is s) (runCommands js) := by
  induction is generalizing s with
  | nil => rfl
  | cons i is ih =>
    simp only [List.cons_append, runCommands]
    cases exec i s <;> simp [ih]

/-- Events one after another. -/
theorem runEvents_append (es fs : List Event) (s : State) :
    runEvents (es ++ fs) s = andThen (runEvents es s) (runEvents fs) := by
  induction es generalizing s with
  | nil => rfl
  | cons e es ih =>
    simp only [List.cons_append, runEvents]
    cases applyEvent e s <;> simp [ih]

/-- The host's run, one step at a time. -/
theorem core_run_succ (n : Nat) (s : State) :
    Host.Core.run Sys2Proof.core (n + 1) s = andThen (step s) (Host.Core.run Sys2Proof.core n) := by
  simp only [Host.Core.run]
  rw [show Sys2Proof.core.step s = step s from rfl]
  cases step s <;> rfl

end Sys2Proof.Machine
end

