-- ==== Sys2Proof/Laws/Tables.lean ====
section
/-! SUPPORT. The small lemmas of the tables ALPHA and REV and of the output words. -/

namespace Sys2Proof.Machine

/-- Every entry of ALPHA has a code in REV. -/
@[simp] theorem revValid_alpha : ∀ v : Code, revValid (alpha v) = true := by decide

/-- The code of an entry of ALPHA is its index. -/
@[simp] theorem revCode_alpha : ∀ v : Code, revCode (alpha v) = v := by decide

/-- An entry of REV is its valid bit followed by its code. -/
theorem rev_eq : ∀ c : Byte, rev c = BitVec.ofBool (revValid c) ++ revCode c := by decide

/-- The EOM word is 0x100 (R47). -/
theorem eomWord_eq : eomWord = 0x100 := rfl

/-- A data word is never the EOM word. -/
theorem dataWord_ne_eomWord : ∀ v : Byte, dataWord v ≠ eomWord := by decide

end Sys2Proof.Machine
end

