-- ==== Sys2Proof/Laws/Units.lean ====
section
/-! SUPPORT. What each command can do, said once: the lemmas that proofs cite in place of unfolding a meaning. -/

namespace Sys2Proof.Machine

/-- A 2-bit register holds one of four values. -/
theorem phase_cases : ∀ p : BitVec 2, p = 0 ∨ p = 1 ∨ p = 2 ∨ p = 3 := by decide

/-- If ENC.B answers next `t`, it went through one of the three arms of R59. -/
theorem execEncB_cases {b : Byte} {s t : State} (h : execEncB b s = .next t) :
    (s.encPhase = 0 ∧ t = writeEnc 1 ((b.extractLsb' 0 2).setWidth 4) (emitEnc (alpha (sym0 b)) s))
    ∨ (s.encPhase = 1
      ∧ t = writeEnc 2 (b.extractLsb' 0 4) (emitEnc (alpha (sym1 (s.encRes.extractLsb' 0 2) b)) s))
    ∨ (s.encPhase = 2
      ∧ t = writeEnc 0 0 (emitEnc (alpha (sym3 b)) (emitEnc (alpha (sym2 s.encRes b)) s))) := by
  unfold execEncB at h
  split at h
  · exact .inl ⟨‹_›, by simpa using h.symm⟩
  · split at h
    · exact .inr (.inl ⟨‹_›, by simpa using h.symm⟩)
    · split at h
      · exact .inr (.inr ⟨‹_›, by simpa using h.symm⟩)
      · cases h

/-- If ENC.END answers next `t`, the phase was legal, `t` differs from the state in ENC fields only, its registers are at
their reset values, and the words appended end in EOM. -/
theorem execEncEnd_cases {s t : State} (h : execEncEnd s = .next t) :
    ∃ vs : List Code, s.encPhase ≠ 3
      ∧ vs = (if s.encPhase = 0 then []
          else if s.encPhase = 1 then [s.encRes.extractLsb' 0 2 ++ 0b0011#4, 52, 61]
          else [s.encRes ++ 0b00#2, 61])
      ∧ t = { s with
          encOut := s.encOut ++ vs.map (fun v => dataWord (alpha v)) ++ [eomWord], encPhase := 0, encRes := 0 } := by
  unfold execEncEnd at h
  split at h
  · next h0 => exact ⟨[], by simp [h0], by simp [h0], by simpa [emitEncEom, writeEnc] using h.symm⟩
  · split at h
    · next h0 h1 =>
      exact ⟨_, by simp [h1], by simp [h1]; rfl, by simpa [emitEncEom, emitEnc, writeEnc] using h.symm⟩
    · split at h
      · next h0 h1 h2 =>
        exact ⟨_, by simp [h2], by simp [h2]; rfl, by simpa [emitEncEom, emitEnc, writeEnc] using h.symm⟩
      · cases h

/-- The arms of R71 leave every field but DEC_PHASE, DEC_RES and DEC_OUT. -/
theorem takeCode_frame (v : Code) (s : State) :
    takeCode v s = { s with
      decPhase := (takeCode v s).decPhase, decRes := (takeCode v s).decRes, decOut := (takeCode v s).decOut } := by
  unfold takeCode
  split
  · rfl
  · split
    · rfl
    · split <;> rfl

/-- Taking a code appends at most one data word to DEC_OUT. -/
theorem takeCode_decOut (v : Code) (s : State) :
    ∃ bs : List Byte, bs.length ≤ 1 ∧ (takeCode v s).decOut = s.decOut ++ bs.map dataWord := by
  unfold takeCode
  split
  · exact ⟨[], by simp⟩
  · split
    · exact ⟨[byte0 s.decRes v], by simp⟩
    · split
      · exact ⟨[byte1 (s.decRes.extractLsb' 0 4) v], by simp⟩
      · exact ⟨[byte2 (s.decRes.extractLsb' 0 2) v], by simp⟩

/-- Taking a code moves the phase on by one, modulo 4 (R16). -/
theorem takeCode_decPhase (v : Code) (s : State) : (takeCode v s).decPhase = s.decPhase + 1 := by
  unfold takeCode
  rcases phase_cases s.decPhase with h | h | h | h <;> simp [h]

/-- If DEC.C answers next `t`, one of the three cases of R71 holds. -/
theorem execDecC_cases {c : Byte} {s t : State} (h : execDecC c s = .next t) :
    (s.decFault = true ∧ t = s)
    ∨ (s.decFault = false ∧ revValid c = true ∧ t = advancePos (takeCode (revCode c) s))
    ∨ (s.decFault = false ∧ revValid c = false ∧ t = raiseInvalidCharacter c s.decPos s) := by
  unfold execDecC at h
  split at h
  · exact .inl ⟨‹_›, by simpa using h.symm⟩
  · split at h
    · exact .inr (.inl ⟨by simpa using ‹¬s.decFault = true›, ‹_›, by simpa using h.symm⟩)
    · exact .inr (.inr ⟨by simpa using ‹¬s.decFault = true›, by simpa using ‹¬revValid c = true›, by simpa using h.symm⟩)

/-- If DEC.END answers next `t`, one of the three cases of R72 holds. -/
theorem execDecEnd_cases {s t : State} (h : execDecEnd s = .next t) :
    (s.decFault = true ∧ t = s)
    ∨ (s.decFault = false ∧ s.decPhase = 0 ∧ t = clearPos (emitDecEom s))
    ∨ (s.decFault = false ∧ s.decPhase ≠ 0 ∧ t = raiseTruncatedInput s.decPos s) := by
  unfold execDecEnd at h
  split at h
  · exact .inl ⟨‹_›, by simpa using h.symm⟩
  · split at h
    · exact .inr (.inl ⟨by simpa using ‹¬s.decFault = true›, ‹_›, by simpa using h.symm⟩)
    · exact .inr (.inr ⟨by simpa using ‹¬s.decFault = true›, ‹_›, by simpa using h.symm⟩)

end Sys2Proof.Machine
end

