-- ==== Sys2Proof/Tests/Slice0.lean ====
section
/-! SUPPORT. Tests. Every expected value is from spec/: the table or program of 95_test_vectors.md, or the rule, that the
comment names. -/

namespace Sys2Proof.Tests

open Sys2Proof.Machine

/-- The next state of an outcome, if it is one. -/
def after (r : Result) : Option State :=
  match r with
  | .next t => some t
  | .fault _ => none
  | .refused _ => none

/-- The ENC part of an outcome: ENC_OUT, ENC_PHASE, ENC_RES. -/
def encOf (r : Result) : Option (List OutWord × BitVec 2 × BitVec 4) :=
  (after r).map fun t => (t.encOut, t.encPhase, t.encRes)

/-- The DEC part of an outcome: DEC_OUT, DEC_PHASE, DEC_RES, DEC_POS. -/
def decOf (r : Result) : Option (List OutWord × BitVec 2 × BitVec 6 × Nat) :=
  (after r).map fun t => (t.decOut, t.decPhase, t.decRes, t.decPos)

/-- The fault registers of an outcome: DEC_FAULT, DEC_CAUSE, ERR_CHAR, ERR_POS. -/
def faultOf (r : Result) : Option (Bool × BitVec 2 × Byte × Nat) :=
  (after r).map fun t => (t.decFault, t.decCause, t.errChar, t.errPos)

/-- The reset state with an ENC phase and residue. -/
def encAt (phase : BitVec 2) (res : BitVec 4) : State := { State.reset with encPhase := phase, encRes := res }

/-- The reset state with a DEC phase, residue and position. -/
def decAt (phase : BitVec 2) (res : BitVec 6) (pos : Nat) : State :=
  { State.reset with decPhase := phase, decRes := res, decPos := pos }

/-- The same with the fault registers set. -/
def faultedAt (phase : BitVec 2) (res : BitVec 6) (pos : Nat) (cause : BitVec 2) (char : Byte) : State :=
  { decAt phase res pos with decFault := true, decCause := cause, errChar := char, errPos := pos }

/-- The reset state with pending events. -/
def withPort (es : List Event) : State := { State.reset with port := es }

/-! ### Well-formedness: for each check an ill-formed term that it refuses (Instr.wf has none: R44, R45) -/

theorem test_commandWordOk : commandWordOk 0x3FF = true ∧ commandWordOk 0x400 = false := by decide
theorem test_isCanonical : isCanonical 0x200 = true ∧ isCanonical 0x2A5 = false ∧ isCanonical 0x301 = false
    ∧ isCanonical 0x1A5 = true := by decide
theorem test_imm8Ok : imm8Ok 255 = true ∧ imm8Ok 256 = false := by decide
theorem test_posWidthOk : posWidthOk 1 = true ∧ posWidthOk 0 = false := by decide
theorem test_line_wf : (Line.encB 256).wf = false ∧ (Line.decMsg [0x54, 300]).wf = false
    ∧ assemble [.encEnd, .decC 256] = none := by decide
theorem test_instr_wf : (Instr.encB 0xFF).wf = true ∧ (Instr.decC 0x3D).wf = true ∧ Instr.encEnd.wf = true
    ∧ Instr.decEnd.wf = true := by decide

/-! ### Decoding: words written out bit by bit from R46 -/

theorem test_decode_encB : decode 0b0001001101 = .encB 0x4D := by decide
theorem test_decode_decC : decode 0b0101010100 = .decC 0x54 := by decide
theorem test_decode_encEnd : decode 0b1000000000 = .encEnd ∧ decode 0b1010100101 = .encEnd := by decide
theorem test_decode_decEnd : decode 0b1100000000 = .decEnd ∧ decode 0b1111111111 = .decEnd := by decide
theorem test_decodeNat_wide : decodeNat 0x400 = .error (.widerThanTenBits 0x400) := rfl
theorem test_decodeNat_last : decodeNat 0x3FF = .ok .decEnd := rfl
theorem test_tableWords : decodeTableWord 16 0x000 = some (.encB 0) ∧ decodeTableWord 16 0x100 = some (.decC 0)
    ∧ decodeTableWord 16 0x200 = some .encEnd ∧ decodeTableWord 16 0x300 = some .decEnd
    ∧ decodeTableWord 16 0x400 = none := by decide

/-! ### Tables (T2) -/

theorem test_alpha : alpha 0 = 0x41 ∧ alpha 25 = 0x5A ∧ alpha 26 = 0x61 ∧ alpha 51 = 0x7A ∧ alpha 52 = 0x30
    ∧ alpha 61 = 0x39 ∧ alpha 62 = 0x2B ∧ alpha 63 = 0x2F := by decide
theorem test_rev_valid : rev 0x41 = 0b1000000 ∧ rev 0x5A = 64 + 25 ∧ rev 0x61 = 64 + 26 ∧ rev 0x7A = 64 + 51
    ∧ rev 0x30 = 64 + 52 ∧ rev 0x39 = 64 + 61 ∧ rev 0x2B = 64 + 62 ∧ rev 0x2F = 64 + 63 := by decide
theorem test_rev_invalid :
    ∀ c ∈ ([0x3D, 0x40, 0x5B, 0x60, 0x7B, 0x3A, 0x2A, 0x2C, 0x2D, 0x2E, 0x5F, 0x20, 0x00, 0x7F, 0x80, 0xC1, 0xFF]
      : List Byte), rev c = 0 := by decide

/-! ### ENC.B (T4) and ENC.END (T5) -/

theorem test_encB_phase1 : encOf (exec (.encB 0x0F) (encAt 1 0b0010)) = some ([0x067], 2, 0b1111) := by decide
theorem test_encB_phase2 : encOf (exec (.encB 0x00) (encAt 2 0b1111)) = some ([0x038, 0x041], 0, 0b0000) := by decide
theorem test_encEnd_phase1 :
    encOf (exec .encEnd (encAt 1 0b0010)) = some ([0x06A, 0x030, 0x039, 0x100], 0, 0b0000) := by decide
theorem test_encEnd_phase2 :
    encOf (exec .encEnd (encAt 2 0b0001)) = some ([0x045, 0x039, 0x100], 0, 0b0000) := by decide

/-! ### DEC.C (T7) and DEC.END (T8) -/

theorem test_decC_phase2 :
    decOf (exec (.decC 0x46) (decAt 2 0b000110 2)) = some ([0x061], 3, 0b000001, 3) := by decide
theorem test_decC_invalid : faultOf (exec (.decC 0x80) (decAt 2 0b000110 6)) = some (true, 1, 0x80, 6)
    ∧ decOf (exec (.decC 0x80) (decAt 2 0b000110 6)) = some ([], 2, 0b000110, 6) := by decide
theorem test_decEnd_truncated : faultOf (exec .decEnd (decAt 3 0b000000 3)) = some (true, 2, 0x00, 3)
    ∧ decOf (exec .decEnd (decAt 3 0b000000 3)) = some ([], 3, 0b000000, 3) := by decide
theorem test_decEnd_good : decOf (exec .decEnd (decAt 0 0 8)) = some ([0x100], 0, 0, 0)
    ∧ faultOf (exec .decEnd (decAt 0 0 8)) = some (false, 0, 0x00, 0) := by decide

/-! ### The position counter (P7), status (T11), the step, reset (T10) -/

theorem test_position_wraps :
    decOf (exec (.decC 0x75) { decAt 3 0b000001 3 with posWidth := 2 }) = some ([0x06E], 0, 0, 0) := by decide
theorem test_status : (faultedAt 3 0 3 1 0x3D).status = 0xC3 ∧ (faultedAt 3 1 3 2 0).status = 0xC5
    ∧ { encAt 2 0 with decPhase := 3 }.status = 0xE0 ∧ { faultedAt 3 0 3 1 0x3D with encPhase := 1 }.status = 0xD3 := by
  decide
theorem test_step_takes_table_word :
    encOf (step (State.reset.withFetchWord 16 0x04D)) = some ([0x054], 1, 0b0001) := by decide
theorem test_step_reset :
    after (step { faultedAt 3 1 7 2 0 with encPhase := 2, encRes := 0b1101, encOut := [0x054], port := [.reset] })
      = some { State.reset with encOut := [0x054] } := by decide

/-! ### Reference functions (T1, T3, T6) -/

theorem test_toBits : Codec.toBits 0x4D 8 = [false, true, false, false, true, true, false, true] := by decide
theorem test_val : Codec.val [false, true, false, false, true, true] = 19 ∧ Codec.val [] = 0 := by decide
theorem test_encode_Man : Codec.encode [0x4D, 0x61, 0x6E] = [0x54, 0x57, 0x46, 0x75] := by decide
theorem test_encode_hello : Codec.encode [0x68, 0x65, 0x6C, 0x6C, 0x6F]
    = [0x61, 0x47, 0x56, 0x73, 0x62, 0x47, 0x38, 0x39] := by decide
theorem test_decode_TWE9 : Codec.decode [0x54, 0x57, 0x45, 0x39] = some [0x4D, 0x61, 0x3D] := by decide
theorem test_decode_outside : Codec.decode [0x54, 0x57, 0x45, 0x3D] = none ∧ Codec.decode [0x54, 0x57] = none := by
  decide

/-! ### The assembler (R50, R51) -/

theorem test_assemble_decC :
    assembleText [[' ', 'D', 'E', 'C', '.', 'C', ' ', '\'', 'T', '\'', ' ', ';', ' ', 'x']] = some [.command 0x154] := by
  decide
theorem test_assemble_hex : assembleText [['E', 'N', 'C', '.', 'B', ' ', '0', 'x', 'F', 'f'], [';'], ['R', 'E', 'S', 'E', 'T']]
    = some [.command 0x0FF, .reset] := by decide
theorem test_assemble_message :
    assembleText [['E', 'N', 'C', '.', 'M', 'S', 'G', ' ', '"', 'M', '"'],
      ['E', 'N', 'C', '.', 'M', 'S', 'G', ' ', '[', '7', '7', ',', ' ', '0', 'x', '1', ']']]
    = some [.command 0x04D, .command 0x200, .command 0x04D, .command 0x001, .command 0x200] := by decide
theorem test_assemble_refuses : assembleText [['E', 'N', 'C', '.', 'B', ' ', '2', '5', '6']] = none
    ∧ assembleText [['E', 'N', 'C', '.', 'E', 'N', 'D', ' ', '1']] = none ∧ assembleText [['N', 'O', 'P']] = none := by
  decide

/-! ### Witnesses: for each statement with hypotheses, states and operands that meet them all, one for each clause -/

theorem witness_EndDataIgnored : 1023 < 1024 ∧ .command 0x200 ∈ (Line.encMsg [0x4D]).expand := ⟨by omega, by decide⟩
theorem witness_PseudoInstructionsExpand : ∀ c ∈ [' ', '~'], isPrintable c = true ∧ c ≠ '"' := by
  simp [isPrintable]
theorem witness_DecodeAndEncodeAgree : (Instr.encB 0xFF).wf = true ∧ Instr.decEnd.wf = true := by decide
theorem witness_StepRunsDecodedCommand :
    (withPort [.command 0x04D, .reset]).port = .command 0x04D :: [.reset]
      ∧ (withPort [.command 0x04D, .reset]).wasReset = true := by decide
theorem witness_FetchedTableWordRuns :
    decodeTableWord 16 0x1FF = some (.decC 0xFF) ∧ State.reset.wasReset = true := by decide
theorem witness_StepTakesReset :
    State.reset.wasReset = true ∧ State.reset.RegistersReset
      ∧ (withPort [.reset]).port = .reset :: [] ∧ (withPort [.reset]).wasReset = true
      ∧ ({ withPort [.reset] with wasReset := false } : State).port = .reset :: []
      ∧ ({ withPort [.reset] with wasReset := false } : State).wasReset = false := by decide
theorem witness_StepWaitsOnEmptyPort : (encAt 1 0b0001).port = [] := by decide
theorem witness_CommandBeforeFirstResetRefused :
    ({ withPort [.command 0x200] with wasReset := false } : State).port = .command 0x200 :: []
      ∧ ({ withPort [.command 0x200] with wasReset := false } : State).wasReset = false := by decide
theorem witness_CommandsLeaveThePort : ∃ t, exec (.encB 0x4D) (withPort [.reset]) = .next t := ⟨_, rfl⟩
theorem witness_EncBByPhase :
    (encAt 0 0).encPhase = 0 ∧ (encAt 1 0b0011).encPhase = 1 ∧ (encAt 2 0b1111).encPhase = 2 := by decide
theorem witness_EncEndByPhase :
    (encAt 0 0).encPhase = 0 ∧ (encAt 1 0b0011).encPhase = 1 ∧ (encAt 2 0b1111).encPhase = 2
      ∧ (encAt 0 0).encPhase ≠ 3 ∧ ((encAt 0 0).encPhase = 0 → (encAt 0 0).encRes = 0) := by decide
theorem witness_EncoderStopsAtPhaseThree : (encAt 3 0).encPhase = 3 := by decide
theorem witness_EncoderFrame :
    Instr.encEnd.isEnc = true ∧ ∃ t, exec .encEnd { decAt 2 0b000110 2 with encPhase := 2 } = .next t := ⟨rfl, _, rfl⟩
theorem witness_EncoderIgnoresDecoder :
    (Instr.encB 0xFF).isEnc = true ∧ State.reset.encPhase = (faultedAt 3 0 3 1 0x3D).encPhase
      ∧ State.reset.encRes = (faultedAt 3 0 3 1 0x3D).encRes ∧ State.reset.encOut = (faultedAt 3 0 3 1 0x3D).encOut
      ∧ ∃ t, exec (.encB 0xFF) State.reset = .next t := ⟨rfl, rfl, rfl, rfl, _, rfl⟩
theorem witness_EncoderAlwaysCompletes : Instr.encEnd.isEnc = true ∧ (encAt 2 0b1111).encPhase ≠ 3 := by decide
theorem witness_DecCByCases :
    (faultedAt 3 0 3 1 0x3D).decFault = true
      ∧ (decAt 0 0 0).decFault = false ∧ (rev 0x3D).getLsbD 6 = false
      ∧ rev 0x2F = 1#1 ++ (63 : Code) ∧ rev 0x41 = 1#1 ++ (0 : Code)
      ∧ (decAt 0 0 0).decPhase = 0 ∧ (decAt 1 0b111111 1).decPhase = 1 ∧ (decAt 2 0b001111 2).decPhase = 2
      ∧ (decAt 3 0b000011 3).decPhase = 3 ∧ (decAt 3 0b000011 3).decFault = false := by decide
theorem witness_DecEndByCases :
    (faultedAt 3 0 3 2 0).decFault = true
      ∧ (decAt 3 0b000001 3).decFault = false ∧ (decAt 3 0b000001 3).decPhase ≠ 0
      ∧ (decAt 0 0 4).decFault = false ∧ (decAt 0 0 4).decPhase = 0 := by decide
theorem witness_FaultEntry :
    (∃ t, exec (.decC 0x3D) (decAt 1 0b010011 1) = .next t ∧ (decAt 1 0b010011 1).decFault = false ∧ t.decFault = true)
      ∧ (∃ t, exec .decEnd (decAt 1 0b010011 1) = .next t ∧ t.decFault = true)
      ∧ revValid 0x80 = false ∧ (decAt 1 0b010011 1).decPhase = 1 := ⟨⟨_, rfl, rfl, rfl⟩, ⟨_, rfl, rfl⟩, rfl, rfl⟩
theorem witness_FaultedDecoderDoesNothing :
    (Instr.decC 0x41).isDec = true ∧ Instr.decEnd.isDec = true ∧ (faultedAt 3 0 3 1 0x3D).decFault = true
      ∧ ({ faultedAt 3 0 3 1 0x3D with port := [.command 0x13D] } : State).port = .command 0x13D :: []
      ∧ (decode 0x13D).isDec = true ∧ (faultedAt 3 0 3 1 0x3D).wasReset = true
      ∧ Instr.encEnd.isEnc = true ∧ (∃ t, exec .encEnd (faultedAt 3 0 3 1 0x3D) = .next t)
      ∧ ({ faultedAt 3 0 3 1 0x3D with port := [.reset] } : State).port = .reset :: [] :=
  ⟨rfl, rfl, rfl, rfl, rfl, rfl, rfl, ⟨_, rfl⟩, rfl⟩
theorem witness_FaultStaysUntilReset :
    (∃ t, step { faultedAt 3 0 3 1 0x3D with port := [.command 0x141] } = .next t)
      ∧ (∃ t, step { faultedAt 3 0 3 1 0x3D with port := [.reset] } = .next t)
      ∧ ({ faultedAt 3 0 3 1 0x3D with port := [.command 0x141] } : State).port.head? ≠ some .reset :=
  ⟨⟨_, rfl⟩, ⟨_, rfl⟩, by decide⟩
theorem witness_DecoderFrame : Instr.decEnd.isDec = true ∧ ∃ t, exec .decEnd (encAt 2 0b1101) = .next t := ⟨rfl, _, rfl⟩
theorem witness_DecoderIgnoresEncoder :
    (Instr.decC 0x54).isDec = true ∧ State.reset.posWidth = (encAt 1 0b0001).posWidth
      ∧ State.reset.decPhase = (encAt 1 0b0001).decPhase ∧ State.reset.decRes = (encAt 1 0b0001).decRes
      ∧ State.reset.decPos = (encAt 1 0b0001).decPos ∧ State.reset.decFault = (encAt 1 0b0001).decFault
      ∧ State.reset.decCause = (encAt 1 0b0001).decCause ∧ State.reset.errChar = (encAt 1 0b0001).errChar
      ∧ State.reset.errPos = (encAt 1 0b0001).errPos ∧ State.reset.decOut = (encAt 1 0b0001).decOut := by decide
theorem witness_PositionReachesOnlyErrPos : ∃ t, exec (.decC 0x20) (decAt 1 0b010011 5) = .next t := ⟨_, rfl⟩
theorem witness_DecoderCountsCharacters :
    (∀ c ∈ ([0x54, 0x57, 0x46, 0x75, 0x54] : List Byte), revValid c = true)
      ∧ State.reset.decFault = false ∧ State.reset.decPhase = 0 ∧ State.reset.decPos = 0 := by decide
theorem witness_AlphaEntriesDistinct : alpha 63 = alpha 63 := rfl
theorem witness_RevIsTheTable : ∀ v : Code, alpha v ≠ 0x3D := by decide
theorem witness_RevRefusesAndInverts :
    (0x1F : Byte) < 0x20 ∧ (0x7F : Byte) ≤ 0x7F ∧ revValid 0x2B = true ∧ revValid 0x7A = true := by decide
theorem witness_StatusWordFields : State.reset.Inv ∧ (faultedAt 3 0 3 1 0x3D).Inv :=
  ⟨by decide, by decide⟩
theorem witness_StatusFaultFieldsAgree :
    State.reset.Inv ∧ State.reset.faultLine = false
      ∧ (faultedAt 3 0 3 2 0).Inv ∧ (faultedAt 3 0 3 2 0).faultLine = true :=
  ⟨by decide, by decide, by decide, by decide⟩
theorem witness_ToBitsFormula : 7 < 8 := by decide
theorem witness_ToBitsAndValInverse : 63 < 2 ^ 6 ∧ 63 < 64 := by decide
theorem witness_PadCountCompletesTheGroup :
    3 % 3 = 0 ∧ 4 % 3 = 1 ∧ 5 % 3 = 2 ∧ 5 ≤ 6 ∧ 6 % 3 = 0 ∧ State.reset.encPhase = 0 := by decide
theorem witness_EncodeLength : State.reset.encPhase = 0 := by decide
theorem witness_EncodeStaysInTheAlphabet : (0x39 : Byte) ∈ Codec.encode [0x3D] := by decide
theorem witness_EmptyMessages :
    State.reset.encPhase = 0 ∧ State.reset.decPhase = 0 ∧ State.reset.decFault = false := by decide
theorem witness_EncodeInvertsDecode : Codec.decode [0x54, 0x57, 0x45, 0x39] = some [0x4D, 0x61, 0x3D] := by decide
theorem witness_RoundTripAddsThePadding :
    State.reset.decPhase = 0 ∧ State.reset.decRes = 0 ∧ State.reset.decPos = 0 ∧ State.reset.decFault = false := by decide
theorem witness_EncoderComputesEncode :
    State.reset.encPhase = 0 ∧ State.reset.encRes = 0
      ∧ [Instr.encB 0x4D, .decC 0x54, .encB 0x61, .decEnd, .encEnd].filter Instr.isEnc
        = [0x4D, 0x61].map .encB ++ [.encEnd] := by decide
theorem witness_DecoderComputesDecode :
    State.reset.encPhase ≠ 3 ∧ State.reset.decPhase = 0 ∧ State.reset.decRes = 0 ∧ State.reset.decPos = 0
      ∧ State.reset.decFault = false ∧ [0x54, 0x54, 0x30, 0x39].length < 2 ^ State.reset.posWidth
      ∧ [Instr.encB 0x4D, .decC 0x54, .decC 0x54, .encEnd, .decC 0x30, .decC 0x39, .decEnd].filter Instr.isDec
        = [0x54, 0x54, 0x30, 0x39].map .decC ++ [.decEnd]
      ∧ Codec.decode [0x54, 0x54, 0x30, 0x39] = some [0x4D, 0x3D, 0x3D] := by decide
theorem witness_DecoderReportsInvalidCharacter :
    State.reset.encPhase ≠ 3 ∧ State.reset.decPhase = 0 ∧ State.reset.decRes = 0 ∧ State.reset.decPos = 0
      ∧ State.reset.decFault = false ∧ [0x54, 0x57, 0x45, 0x3D].length < 2 ^ State.reset.posWidth
      ∧ [Instr.decC 0x54, .decC 0x57, .decC 0x45, .decC 0x3D, .decEnd].filter Instr.isDec
        = [0x54, 0x57, 0x45, 0x3D].map .decC ++ [.decEnd]
      ∧ ([0x54, 0x57, 0x45, 0x3D] : List Byte)[3]? = some 0x3D ∧ revValid 0x3D = false
      ∧ ∀ d ∈ ([0x54, 0x57, 0x45, 0x3D] : List Byte).take 3, revValid d = true := by decide
theorem witness_DecoderReportsTruncatedInput :
    State.reset.encPhase ≠ 3 ∧ State.reset.decPhase = 0 ∧ State.reset.decRes = 0 ∧ State.reset.decPos = 0
      ∧ State.reset.decFault = false ∧ [0x54, 0x57, 0x46].length < 2 ^ State.reset.posWidth
      ∧ [Instr.decC 0x54, .decC 0x57, .decC 0x46, .decEnd].filter Instr.isDec
        = [0x54, 0x57, 0x46].map .decC ++ [.decEnd]
      ∧ (∀ d ∈ ([0x54, 0x57, 0x46] : List Byte), revValid d = true) ∧ [0x54, 0x57, 0x46].length % 4 ≠ 0 := by decide
theorem witness_StepKeepsTheInvariants :
    (∃ t, step (withPort [.command 0x154]) = .next t) ∧ (withPort [.command 0x154]).Inv := ⟨⟨_, rfl⟩, by decide⟩
theorem witness_ResetMeetsTheInvariants : 1 ≤ 1 := by decide
theorem witness_StepKeepsTheHistoriesLegal :
    (∃ t, step (withPort [.command 0x200]) = .next t) ∧ ({ withPort [.command 0x200] with
      encOut := [0x054, 0x100], decOut := [0x000, 0x0FF, 0x100] } : State).OutInv := ⟨⟨_, rfl⟩, by decide⟩
theorem witness_EveryCommandCompletes :
    (faultedAt 3 0 3 2 0).Inv ∧ (encAt 2 0b1111).Inv ∧ (decAt 3 0b000011 7).Inv :=
  ⟨by decide, by decide, by decide⟩
theorem witness_EndLeavesResetState :
    (∃ t, exec .encEnd (encAt 1 0b0011) = .next t)
      ∧ (decAt 0 0 4).Inv ∧ ∃ t, exec .decEnd (decAt 0 0 4) = .next t ∧ t.decFault = false :=
  ⟨⟨_, rfl⟩, by decide, _, rfl, rfl⟩
theorem witness_HistoriesGrowByFewWords : ∃ t, exec .encEnd (encAt 1 0b0011) = .next t := ⟨_, rfl⟩
theorem witness_StepTakesNothingBack :
    (∃ t, step (withPort [.reset]) = .next t) ∧ (withPort [.reset]).wasReset = true := ⟨⟨_, rfl⟩, rfl⟩
theorem witness_InterleavingIsFree :
    ∃ t, runEvents [.reset, .command 0x04D, .command 0x154, .command 0x200, .command 0x300] State.reset = .next t :=
  ⟨_, rfl⟩
theorem witness_MessagesWithoutEndRunTogether : State.reset.encPhase = 0 ∧ State.reset.encRes = 0 := by decide
theorem witness_GoodEndIsResetState :
    ∃ t, IsRun [.reset, .command 0x04D, .command 0x200, .command 0x300]
      ∧ runEvents [.reset, .command 0x04D, .command 0x200, .command 0x300] State.reset = .next t
      ∧ GoodEnd [.reset, .command 0x04D, .command 0x200, .command 0x300] t := ⟨_, rfl, rfl, by decide⟩
/-- P9 of 95_test_vectors.md: whole groups without END end at phase 0, and that is no good end. -/
theorem test_open_message_is_no_good_end :
    ¬ GoodEnd [.reset, .command 0x04D, .command 0x061, .command 0x06E] State.reset := by decide

end Sys2Proof.Tests
end

section
/-! PROOFS. The scope of the model (spec/00_scope.md R6, spec/10_state.md R25 to R27): the reset state meets the invariants,
and no step takes an output word back or changes POS_WIDTH. -/

namespace Sys2Proof.Machine

/-! ### The reset state -/

theorem resetAt_encInv (w : Nat) : (State.resetAt w).EncInv := ⟨by simp, by simp, by simp⟩

theorem resetAt_decInv (w : Nat) : (State.resetAt w).DecInv := ⟨by simp, by simp, by simp⟩

theorem resetAt_faultInv (w : Nat) : (State.resetAt w).FaultInv := ⟨by simp, by simp⟩

/-- The one invariant that needs a premise: POS_WIDTH is at least 1 (R6). -/
theorem resetAt_posInv {w : Nat} (hw : 1 ≤ w) : (State.resetAt w).PosInv :=
  ⟨hw, Nat.two_pow_pos w, Nat.two_pow_pos w, fun _ => ⟨by simp, by simp⟩⟩

theorem resetAt_inv {w : Nat} (hw : 1 ≤ w) : (State.resetAt w).Inv :=
  ⟨resetAt_encInv w, resetAt_decInv w, resetAt_faultInv w, resetAt_posInv hw⟩

theorem resetAt_outInv (w : Nat) : (State.resetAt w).OutInv := ⟨by simp, by simp⟩

theorem resetAt_registersReset (w : Nat) : (State.resetAt w).RegistersReset :=
  ⟨rfl, rfl, rfl, rfl, rfl, rfl, rfl, rfl, rfl⟩

/-- Settles O51, invariant by invariant; that POS_WIDTH is at least 1 is used for the position registers only. -/
theorem resetMeetsTheInvariants : Obligations.ResetMeetsTheInvariants :=
  ⟨rfl, fun w hw =>
    ⟨resetAt_inv hw, resetAt_outInv w, resetAt_registersReset w, resetAt_encOut w, resetAt_decOut w⟩⟩

/-! ### What no command takes back -/

@[simp] theorem takeCode_posWidth (v : Code) (s : State) : (takeCode v s).posWidth = s.posWidth := by
  rw [takeCode_frame]

@[simp] theorem takeCode_wasReset (v : Code) (s : State) : (takeCode v s).wasReset = s.wasReset := by
  rw [takeCode_frame]

@[simp] theorem takeCode_encOut (v : Code) (s : State) : (takeCode v s).encOut = s.encOut := by
  rw [takeCode_frame]

theorem decOut_prefix_takeCode (v : Code) (s : State) : s.decOut <+: (takeCode v s).decOut := by
  obtain ⟨bs, -, h⟩ := takeCode_decOut v s
  exact ⟨_, h.symm⟩

/-- `t` has the POS_WIDTH and the reset mark of `s`, and its histories are those of `s` with words appended (R6, R26). -/
structure Extends (s t : State) : Prop where
  posWidth : t.posWidth = s.posWidth
  wasReset : t.wasReset = s.wasReset
  encOut : s.encOut <+: t.encOut
  decOut : s.decOut <+: t.decOut

theorem Extends.refl (s : State) : Extends s s := ⟨rfl, rfl, List.prefix_rfl, List.prefix_rfl⟩

theorem execEncB_extends {b : Byte} {s t : State} (h : execEncB b s = .next t) : Extends s t := by
  obtain ⟨-, rfl⟩ | ⟨-, rfl⟩ | ⟨-, rfl⟩ := execEncB_cases h
  · exact ⟨rfl, rfl, by simp, by simp⟩
  · exact ⟨rfl, rfl, by simp, by simp⟩
  · exact ⟨rfl, rfl, by simp, by simp⟩

theorem execEncEnd_extends {s t : State} (h : execEncEnd s = .next t) : Extends s t := by
  obtain ⟨vs, -, -, rfl⟩ := execEncEnd_cases h
  exact ⟨rfl, rfl, by simp, by simp⟩

theorem execDecC_extends {c : Byte} {s t : State} (h : execDecC c s = .next t) : Extends s t := by
  obtain ⟨-, rfl⟩ | ⟨-, -, rfl⟩ | ⟨-, -, rfl⟩ := execDecC_cases h
  · exact .refl _
  · exact ⟨by simp, by simp, by simp, decOut_prefix_takeCode _ s⟩
  · exact ⟨rfl, rfl, by simp, by simp⟩

theorem execDecEnd_extends {s t : State} (h : execDecEnd s = .next t) : Extends s t := by
  obtain ⟨-, rfl⟩ | ⟨-, -, rfl⟩ | ⟨-, -, rfl⟩ := execDecEnd_cases h
  · exact .refl _
  · exact ⟨rfl, rfl, by simp, by simp⟩
  · exact ⟨rfl, rfl, by simp, by simp⟩

/-- No command takes an output word back or changes POS_WIDTH or the reset mark. -/
theorem exec_extends {i : Instr} {s t : State} (h : exec i s = .next t) : Extends s t := by
  cases i with
  | encB b => exact execEncB_extends h
  | decC c => exact execDecC_extends h
  | encEnd => exact execEncEnd_extends h
  | decEnd => exact execDecEnd_extends h

/-- After the first reset a further one takes nothing back either: it leaves the histories (R102). -/
theorem resetEvent_extends {s : State} (h : s.wasReset = true) : Extends s (resetEvent s) :=
  ⟨rfl, by simp [h], by simp [h], by simp [h]⟩

/-- Settles O56, by what the step took: nothing, a command, or a reset. Taking an event off the port touches none of the
fields in question. -/
theorem stepTakesNothingBack : Obligations.StepTakesNothingBack := by
  intro s t h
  obtain ⟨-, rfl⟩ | ⟨w, es, -, -, hexec⟩ | ⟨es, -, rfl⟩ := step_cases h
  · exact ⟨rfl, fun hs => ⟨hs, List.prefix_rfl, List.prefix_rfl⟩⟩
  · obtain ⟨hwidth, hreset, henc, hdec⟩ := exec_extends hexec
    exact ⟨hwidth, fun hs => ⟨hreset.trans hs, henc, hdec⟩⟩
  · refine ⟨rfl, fun hs => ?_⟩
    have hext : Extends { s with port := es } _ := resetEvent_extends hs
    exact ⟨rfl, hext.encOut, hext.decOut⟩

end Sys2Proof.Machine
end

section
/-! PROOFS. The state of the two units (spec/10_state.md R13 to R27): neither unit reads or writes the other's part, every
command completes, every step keeps the invariants, and a good end of a run is the reset state (R111). -/

namespace Sys2Proof.Machine

/-! ### The meanings, and which unit they belong to -/

@[simp] theorem exec_encB (b : Byte) (s : State) : exec (.encB b) s = execEncB b s := rfl
@[simp] theorem exec_decC (c : Byte) (s : State) : exec (.decC c) s = execDecC c s := rfl
@[simp] theorem exec_encEnd (s : State) : exec .encEnd s = execEncEnd s := rfl
@[simp] theorem exec_decEnd (s : State) : exec .decEnd s = execDecEnd s := rfl

theorem isEnc_cases {i : Instr} (hi : i.isEnc = true) : (∃ b, i = .encB b) ∨ i = .encEnd := by
  cases i with
  | encB b => exact .inl ⟨b, rfl⟩
  | encEnd => exact .inr rfl
  | decC c => cases hi
  | decEnd => cases hi

theorem isDec_cases {i : Instr} (hi : i.isDec = true) : (∃ c, i = .decC c) ∨ i = .decEnd := by
  cases i with
  | encB b => cases hi
  | encEnd => cases hi
  | decC c => exact .inl ⟨c, rfl⟩
  | decEnd => exact .inr rfl

theorem isEnc_eq_false {i : Instr} : i.isEnc = false ↔ i.isDec = true := by simp [Instr.isDec]

theorem isDec_eq_false {i : Instr} : i.isDec = false ↔ i.isEnc = true := by simp [Instr.isDec]

/-! ### Taking a code writes the registers of its group only -/

@[simp] theorem takeCode_decPos (v : Code) (s : State) : (takeCode v s).decPos = s.decPos := by rw [takeCode_frame]
@[simp] theorem takeCode_decFault (v : Code) (s : State) : (takeCode v s).decFault = s.decFault := by rw [takeCode_frame]
@[simp] theorem takeCode_decCause (v : Code) (s : State) : (takeCode v s).decCause = s.decCause := by rw [takeCode_frame]
@[simp] theorem takeCode_errChar (v : Code) (s : State) : (takeCode v s).errChar = s.errChar := by rw [takeCode_frame]
@[simp] theorem takeCode_errPos (v : Code) (s : State) : (takeCode v s).errPos = s.errPos := by rw [takeCode_frame]

/-! ### The two parts of the state (R13) -/

/-- `u` with the ENC part of `s`: ENC_PHASE, ENC_RES and ENC_OUT. -/
def State.withEncOf (u s : State) : State :=
  { u with encPhase := s.encPhase, encRes := s.encRes, encOut := s.encOut }

/-- `u` with the DEC part of `s`: the DEC and fault registers, DEC_OUT, and the parameter POS_WIDTH that they are read
with. -/
def State.withDecOf (u s : State) : State :=
  { u with
    decPhase := s.decPhase, decRes := s.decRes, decPos := s.decPos
    decFault := s.decFault, decCause := s.decCause, errChar := s.errChar, errPos := s.errPos
    decOut := s.decOut, posWidth := s.posWidth }

@[simp] theorem withEncOf_self (s : State) : s.withEncOf s = s := rfl
@[simp] theorem withDecOf_self (s : State) : s.withDecOf s = s := rfl

@[simp] theorem withEncOf_encPhase (u s : State) : (u.withEncOf s).encPhase = s.encPhase := rfl
@[simp] theorem withEncOf_encRes (u s : State) : (u.withEncOf s).encRes = s.encRes := rfl
@[simp] theorem withDecOf_decPhase (u s : State) : (u.withDecOf s).decPhase = s.decPhase := rfl
@[simp] theorem withDecOf_decRes (u s : State) : (u.withDecOf s).decRes = s.decRes := rfl
@[simp] theorem withDecOf_decPos (u s : State) : (u.withDecOf s).decPos = s.decPos := rfl
@[simp] theorem withDecOf_decFault (u s : State) : (u.withDecOf s).decFault = s.decFault := rfl

/-- A state that agrees with `s` on the ENC part is not changed by taking it over. -/
theorem withEncOf_eq_self {u s : State} (hphase : s.encPhase = u.encPhase) (hres : s.encRes = u.encRes)
    (hout : s.encOut = u.encOut) : u.withEncOf s = u := by
  simp only [State.withEncOf, hphase, hres, hout]

/-! Each write of a unit is a write of its part. -/

@[simp] theorem emitEnc_withEncOf (v : Byte) (u s : State) :
    emitEnc v (u.withEncOf s) = u.withEncOf (emitEnc v s) := rfl
@[simp] theorem emitEncEom_withEncOf (u s : State) : emitEncEom (u.withEncOf s) = u.withEncOf (emitEncEom s) := rfl
@[simp] theorem writeEnc_withEncOf (p : BitVec 2) (r : BitVec 4) (u s : State) :
    writeEnc p r (u.withEncOf s) = u.withEncOf (writeEnc p r s) := rfl
@[simp] theorem emitDec_withDecOf (v : Byte) (u s : State) :
    emitDec v (u.withDecOf s) = u.withDecOf (emitDec v s) := rfl
@[simp] theorem emitDecEom_withDecOf (u s : State) : emitDecEom (u.withDecOf s) = u.withDecOf (emitDecEom s) := rfl
@[simp] theorem writeDec_withDecOf (p : BitVec 2) (r : BitVec 6) (u s : State) :
    writeDec p r (u.withDecOf s) = u.withDecOf (writeDec p r s) := rfl
@[simp] theorem advancePos_withDecOf (u s : State) : advancePos (u.withDecOf s) = u.withDecOf (advancePos s) := rfl
@[simp] theorem clearPos_withDecOf (u s : State) : clearPos (u.withDecOf s) = u.withDecOf (clearPos s) := rfl
@[simp] theorem raiseFault_withDecOf (k : BitVec 2) (c : Byte) (n : Nat) (u s : State) :
    raiseFault k c n (u.withDecOf s) = u.withDecOf (raiseFault k c n s) := rfl

@[simp] theorem takeCode_withDecOf (v : Code) (u s : State) :
    takeCode v (u.withDecOf s) = u.withDecOf (takeCode v s) := by
  rcases phase_cases s.decPhase with h | h | h | h <;> simp [takeCode, h]

/-! Each command works on its unit's part alone, its stop included. -/

theorem execEncB_withEncOf (b : Byte) (u s : State) :
    execEncB b (u.withEncOf s) = andThen (execEncB b s) fun t => .next (u.withEncOf t) := by
  rcases phase_cases s.encPhase with h | h | h | h <;> simp [execEncB, h]

theorem execEncEnd_withEncOf (u s : State) :
    execEncEnd (u.withEncOf s) = andThen (execEncEnd s) fun t => .next (u.withEncOf t) := by
  rcases phase_cases s.encPhase with h | h | h | h <;> simp [execEncEnd, h]

theorem execDecC_withDecOf (c : Byte) (u s : State) :
    execDecC c (u.withDecOf s) = andThen (execDecC c s) fun t => .next (u.withDecOf t) := by
  cases hf : s.decFault with
  | true => simp [execDecC, hf]
  | false => cases hc : revValid c <;> simp [execDecC, hf, hc]

theorem execDecEnd_withDecOf (u s : State) :
    execDecEnd (u.withDecOf s) = andThen (execDecEnd s) fun t => .next (u.withDecOf t) := by
  cases hf : s.decFault with
  | true => simp [execDecEnd, hf]
  | false => by_cases hp : s.decPhase = 0#2 <;> simp [execDecEnd, hf, hp]

/-- An ENC command runs on the ENC part of the state, whatever stands beside it (R13, R96). -/
theorem exec_withEncOf {i : Instr} {s t : State} (hi : i.isEnc = true) (h : exec i s = .next t) (u : State) :
    exec i (u.withEncOf s) = .next (u.withEncOf t) := by
  obtain ⟨b, rfl⟩ | rfl := isEnc_cases hi
  · simp only [exec_encB] at h ⊢
    rw [execEncB_withEncOf, h, andThen_next]
  · simp only [exec_encEnd] at h ⊢
    rw [execEncEnd_withEncOf, h, andThen_next]

/-- A DEC command runs on the DEC part of the state, whatever stands beside it (R13, R107). -/
theorem exec_withDecOf {i : Instr} {s t : State} (hi : i.isDec = true) (h : exec i s = .next t) (u : State) :
    exec i (u.withDecOf s) = .next (u.withDecOf t) := by
  obtain ⟨c, rfl⟩ | rfl := isDec_cases hi
  · simp only [exec_decC] at h ⊢
    rw [execDecC_withDecOf, h, andThen_next]
  · simp only [exec_decEnd] at h ⊢
    rw [execDecEnd_withDecOf, h, andThen_next]

/-- The frame of the ENC commands: they change the ENC part of the state only. -/
theorem exec_enc_frame {i : Instr} {s t : State} (hi : i.isEnc = true) (h : exec i s = .next t) :
    t = s.withEncOf t := by
  have hself := exec_withEncOf hi h s
  rw [withEncOf_self, h] at hself
  injection hself

/-- The frame of the DEC commands: they change the DEC part of the state only. -/
theorem exec_dec_frame {i : Instr} {s t : State} (hi : i.isDec = true) (h : exec i s = .next t) :
    t = s.withDecOf t := by
  have hself := exec_withDecOf hi h s
  rw [withDecOf_self, h] at hself
  injection hself

/-! ### Every command completes -/

theorem execEncB_completes (b : Byte) {s : State} (hs : s.encPhase ≠ 3) : ∃ t, execEncB b s = .next t := by
  rcases phase_cases s.encPhase with h | h | h | h
  · simp [execEncB, h]
  · simp [execEncB, h]
  · simp [execEncB, h]
  · exact absurd h hs

theorem execEncEnd_completes {s : State} (hs : s.encPhase ≠ 3) : ∃ t, execEncEnd s = .next t := by
  rcases phase_cases s.encPhase with h | h | h | h
  · simp [execEncEnd, h]
  · simp [execEncEnd, h]
  · simp [execEncEnd, h]
  · exact absurd h hs

theorem execDecC_completes (c : Byte) (s : State) : ∃ t, execDecC c s = .next t := by
  unfold execDecC
  split
  · exact ⟨_, rfl⟩
  · split <;> exact ⟨_, rfl⟩

theorem execDecEnd_completes (s : State) : ∃ t, execDecEnd s = .next t := by
  unfold execDecEnd
  split
  · exact ⟨_, rfl⟩
  · split <;> exact ⟨_, rfl⟩

theorem exec_dec_completes {i : Instr} (hi : i.isDec = true) (s : State) : ∃ t, exec i s = .next t := by
  obtain ⟨c, rfl⟩ | rfl := isDec_cases hi
  · exact execDecC_completes c s
  · exact execDecEnd_completes s

/-- A command completes in every state with a legal ENC_PHASE. -/
theorem exec_completes (i : Instr) {s : State} (hs : s.encPhase ≠ 3) : ∃ t, exec i s = .next t := by
  cases i with
  | encB b => exact execEncB_completes b hs
  | decC c => exact execDecC_completes c s
  | encEnd => exact execEncEnd_completes hs
  | decEnd => exact execDecEnd_completes s

/-! ### The invariants of R27, one by one -/

/-- After an ENC command the ENC invariant holds, from every state: each arm writes phase and residue together. -/
theorem exec_enc_encInv {i : Instr} {s t : State} (hi : i.isEnc = true) (h : exec i s = .next t) : t.EncInv := by
  obtain ⟨b, rfl⟩ | rfl := isEnc_cases hi
  · obtain ⟨-, rfl⟩ | ⟨-, rfl⟩ | ⟨-, rfl⟩ := execEncB_cases h
    · exact ⟨by simp, by simp, fun _ => encRes_high2 _⟩
    · exact ⟨by simp, by simp, by simp⟩
    · exact ⟨by simp, by simp, by simp⟩
  · obtain ⟨vs, -, -, rfl⟩ := execEncEnd_cases h
    exact ⟨by simp, by simp, by simp⟩

/-- Taking a code leaves no stray bit in DEC_RES, from every state. -/
theorem takeCode_decInv (v : Code) (s : State) : (takeCode v s).DecInv := by
  unfold takeCode
  split
  · exact ⟨by simp, by simp, by simp⟩
  · split
    · exact ⟨by simp, fun _ => decRes_high2 _, by simp⟩
    · split
      · exact ⟨by simp, by simp, fun _ => decRes_high4 _⟩
      · exact ⟨by simp, by simp, by simp⟩

theorem execDecC_decInv {c : Byte} {s t : State} (hs : s.DecInv) (h : execDecC c s = .next t) : t.DecInv := by
  obtain ⟨-, rfl⟩ | ⟨-, -, rfl⟩ | ⟨-, -, rfl⟩ := execDecC_cases h
  · exact hs
  · exact takeCode_decInv _ s
  · exact hs

/-- DEC.END writes neither DEC_PHASE nor DEC_RES. -/
theorem execDecEnd_decInv {s t : State} (hs : s.DecInv) (h : execDecEnd s = .next t) : t.DecInv := by
  obtain ⟨-, rfl⟩ | ⟨-, -, rfl⟩ | ⟨-, -, rfl⟩ := execDecEnd_cases h
  all_goals exact hs

theorem exec_dec_decInv {i : Instr} {s t : State} (hi : i.isDec = true) (hs : s.DecInv) (h : exec i s = .next t) :
    t.DecInv := by
  obtain ⟨c, rfl⟩ | rfl := isDec_cases hi
  · exact execDecC_decInv hs h
  · exact execDecEnd_decInv hs h

/-- Taking a code leaves the fault registers; a character that is refused is the ERR_CHAR its cause asks for (R88). -/
theorem execDecC_faultInv {c : Byte} {s t : State} (hs : s.FaultInv) (h : execDecC c s = .next t) : t.FaultInv := by
  obtain ⟨-, rfl⟩ | ⟨hf, -, rfl⟩ | ⟨-, hc, rfl⟩ := execDecC_cases h
  · exact hs
  · exact ⟨by simpa using hs.1, by simp [hf]⟩
  · exact ⟨by simp, fun _ => .inl ⟨rfl, hc⟩⟩

/-- DEC.END raises in the middle of a group only, as its cause asks (R88). -/
theorem execDecEnd_faultInv {s t : State} (hs : s.FaultInv) (h : execDecEnd s = .next t) : t.FaultInv := by
  obtain ⟨-, rfl⟩ | ⟨-, -, rfl⟩ | ⟨-, hp, rfl⟩ := execDecEnd_cases h
  · exact hs
  · exact hs
  · exact ⟨by simp, fun _ => .inr ⟨rfl, rfl, hp⟩⟩

theorem exec_dec_faultInv {i : Instr} {s t : State} (hi : i.isDec = true) (hs : s.FaultInv)
    (h : exec i s = .next t) : t.FaultInv := by
  obtain ⟨c, rfl⟩ | rfl := isDec_cases hi
  · exact execDecC_faultInv hs h
  · exact execDecEnd_faultInv hs h

/-- The phase counts modulo 4. -/
theorem phase_succ_toNat (p : BitVec 2) : (p + 1).toNat = (p.toNat + 1) % 4 := by simp [BitVec.toNat_add]

/-- The phase goes on with the position: counting modulo 2^POS_WIDTH agrees with counting modulo any power of two that
divides it (R27 item 6). -/
theorem advancePos_takeCode_posInv (v : Code) {s : State} (hs : s.PosInv) (hf : s.decFault = false) :
    (advancePos (takeCode v s)).PosInv := by
  obtain ⟨hwidth, -, herr, hphase⟩ := hs
  obtain ⟨hmod4, hmod2⟩ := hphase hf
  refine ⟨by simpa, by simpa using Nat.mod_lt _ (Nat.two_pow_pos _), by simpa, fun _ => ⟨fun hw => ?_, ?_⟩⟩
  · have hdvd : 4 ∣ 2 ^ s.posWidth := Nat.pow_dvd_pow 2 (by simpa using hw)
    have h := hmod4 (by simpa using hw)
    simp only [advancePos_decPhase, takeCode_decPhase, phase_succ_toNat, advancePos_decPos, takeCode_decPos,
      takeCode_posWidth, Nat.mod_mod_of_dvd _ hdvd]
    omega
  · have hdvd : 2 ∣ 2 ^ s.posWidth := dvd_pow_self 2 (by omega)
    simp only [advancePos_decPhase, takeCode_decPhase, phase_succ_toNat, advancePos_decPos, takeCode_decPos,
      takeCode_posWidth, Nat.mod_mod_of_dvd _ hdvd]
    omega

/-- Raising a fault at the current position keeps the position registers within POS_WIDTH. -/
theorem raiseFault_posInv (k : BitVec 2) (c : Byte) {s : State} (hs : s.PosInv) :
    (raiseFault k c s.decPos s).PosInv := by
  obtain ⟨hwidth, hpos, -, -⟩ := hs
  exact ⟨hwidth, hpos, hpos, by simp⟩

theorem execDecC_posInv {c : Byte} {s t : State} (hs : s.PosInv) (h : execDecC c s = .next t) : t.PosInv := by
  obtain ⟨-, rfl⟩ | ⟨hf, -, rfl⟩ | ⟨-, -, rfl⟩ := execDecC_cases h
  · exact hs
  · exact advancePos_takeCode_posInv _ hs hf
  · exact raiseFault_posInv _ _ hs

theorem execDecEnd_posInv {s t : State} (hs : s.PosInv) (h : execDecEnd s = .next t) : t.PosInv := by
  obtain ⟨-, rfl⟩ | ⟨-, hp, rfl⟩ | ⟨-, -, rfl⟩ := execDecEnd_cases h
  · exact hs
  · obtain ⟨hwidth, -, herr, -⟩ := hs
    exact ⟨hwidth, Nat.two_pow_pos _, herr, fun _ => ⟨by simp [hp], by simp [hp]⟩⟩
  · exact raiseFault_posInv _ _ hs

theorem exec_dec_posInv {i : Instr} {s t : State} (hi : i.isDec = true) (hs : s.PosInv) (h : exec i s = .next t) :
    t.PosInv := by
  obtain ⟨c, rfl⟩ | rfl := isDec_cases hi
  · exact execDecC_posInv hs h
  · exact execDecEnd_posInv hs h

/-- Every command keeps the invariants: its own unit's by the lemmas above, the other unit's by its frame. -/
theorem exec_inv {i : Instr} {s t : State} (hs : s.Inv) (h : exec i s = .next t) : t.Inv := by
  obtain ⟨henc, hdec, hfault, hpos⟩ := hs
  cases hi : i.isEnc with
  | true =>
    have henc' := exec_enc_encInv hi h
    rw [exec_enc_frame hi h]
    exact ⟨henc', hdec, hfault, hpos⟩
  | false =>
    have hi := isEnc_eq_false.mp hi
    have henc' : (s.withDecOf t).EncInv := henc
    rw [← exec_dec_frame hi h] at henc'
    exact ⟨henc', exec_dec_decInv hi hdec h, exec_dec_faultInv hi hfault h, exec_dec_posInv hi hpos h⟩

/-- The reset event establishes the invariants; it needs of the state before only that POS_WIDTH is at least 1. -/
theorem resetEvent_inv {s : State} (hw : 1 ≤ s.posWidth) : (resetEvent s).Inv :=
  resetAt_inv hw

/-- Settles O50, by what the step took: nothing, a command, or a reset. Taking an event off the port touches no register. -/
theorem stepKeepsTheInvariants : Obligations.StepKeepsTheInvariants := by
  intro s t hs h
  obtain ⟨-, rfl⟩ | ⟨w, es, -, -, hexec⟩ | ⟨es, -, rfl⟩ := step_cases h
  · exact hs
  · have hport : { s with port := es }.Inv := hs
    exact exec_inv hport hexec
  · obtain ⟨-, -, -, hwidth, -⟩ := hs
    exact resetEvent_inv hwidth

/-- Settles O53: the legal phase makes the command complete, and it keeps the invariants. -/
theorem everyCommandCompletes : Obligations.EveryCommandCompletes := by
  intro i s hs
  obtain ⟨t, h⟩ := exec_completes i hs.1.1
  exact ⟨t, h, exec_inv hs h⟩

/-! ### Each unit alone -/

/-- Settles O15, by the arms of R59 and R60. -/
theorem encoderStopsAtPhaseThree : Obligations.EncoderStopsAtPhaseThree := by
  intro b s hs
  exact ⟨by simp [execEncB, hs], by simp [execEncEnd, hs]⟩

/-- Settles O16: only the ENC part changes, and every field named is outside it. -/
theorem encoderFrame : Obligations.EncoderFrame := by
  intro i s t hi h
  rw [exec_enc_frame hi h]
  exact ⟨rfl, rfl, rfl, rfl, rfl, rfl, rfl, rfl, rfl, rfl⟩

/-- Settles O17: the other state is itself with the ENC part of the first. -/
theorem encoderIgnoresDecoder : Obligations.EncoderIgnoresDecoder := by
  intro i s u t hi hphase hres hout h
  have hu := exec_withEncOf hi h u
  rw [withEncOf_eq_self hphase hres hout] at hu
  exact ⟨_, hu, rfl, rfl, rfl⟩

/-- Settles O18: a legal phase is all that completion needs, and every ENC command leaves one. -/
theorem encoderAlwaysCompletes : Obligations.EncoderAlwaysCompletes := by
  intro i s hi hs
  obtain ⟨t, h⟩ := exec_completes i hs
  obtain ⟨hphase, -, -⟩ := exec_enc_encInv hi h
  exact ⟨t, h, hphase⟩

/-- Settles O24: only the DEC part changes, and of it POS_WIDTH is changed by no command. -/
theorem decoderFrame : Obligations.DecoderFrame := by
  intro i s t hi h
  have hwidth := (exec_extends h).posWidth
  rw [exec_dec_frame hi h]
  exact ⟨rfl, rfl, rfl, hwidth, rfl⟩

/-- Settles O25: the second state is itself with the DEC part of the first. -/
theorem decoderIgnoresEncoder : Obligations.DecoderIgnoresEncoder := by
  intro i s u hi hwidth hphase hres hpos hfault hcause hchar herr hout
  obtain ⟨t, h⟩ := exec_dec_completes hi s
  have hu := exec_withDecOf hi h u
  have hself : u.withDecOf s = u := by
    simp only [State.withDecOf, hwidth, hphase, hres, hpos, hfault, hcause, hchar, herr, hout]
  rw [hself] at hu
  exact ⟨t, _, h, hu, rfl, rfl, rfl, rfl, rfl, rfl, rfl, rfl⟩

/-! ### Counts -/

/-- A DEC.C of an alphabet character in a decoder without a fault takes the character's code. -/
theorem execDecC_valid {c : Byte} {s : State} (hf : s.decFault = false) (hc : revValid c = true) :
    execDecC c s = .next (advancePos (takeCode (revCode c) s)) := by
  simp [execDecC, hf, hc]

/-- Alphabet characters raise no fault and move phase and position on by their number, each modulo its size, from any phase
and position. -/
theorem runCommands_decC_counts {text : List Byte} {s : State} (htext : ∀ c ∈ text, revValid c = true)
    (hf : s.decFault = false) (hpos : s.decPos < 2 ^ s.posWidth) :
    ∃ t, runCommands (text.map .decC) s = .next t ∧ t.decFault = false
      ∧ t.decPhase.toNat = (s.decPhase.toNat + text.length) % 4
      ∧ t.decPos = (s.decPos + text.length) % 2 ^ s.posWidth := by
  induction text generalizing s with
  | nil => exact ⟨s, rfl, hf, (Nat.mod_eq_of_lt s.decPhase.isLt).symm, (Nat.mod_eq_of_lt hpos).symm⟩
  | cons c text ih =>
    obtain ⟨hc, htext⟩ := List.forall_mem_cons.mp htext
    obtain ⟨t, hrun, hfault, hphase, hcount⟩ := ih (s := advancePos (takeCode (revCode c) s)) htext (by simpa using hf)
      (by simpa using Nat.mod_lt _ (Nat.two_pow_pos _))
    refine ⟨t, ?_, hfault, ?_, ?_⟩
    · simp only [List.map_cons, runCommands, exec_decC, execDecC_valid hf hc, andThen_next, hrun]
    · simp only [hphase, advancePos_decPhase, takeCode_decPhase, phase_succ_toNat, List.length_cons]
      omega
    · simp only [hcount, advancePos_decPos, takeCode_decPos, advancePos_posWidth, takeCode_posWidth, Nat.mod_add_mod,
        List.length_cons, Nat.add_assoc, Nat.add_comm 1]

/-- Settles O27, from phase 0 and position 0. -/
theorem decoderCountsCharacters : Obligations.DecoderCountsCharacters := by
  intro text s htext hf hphase hpos
  obtain ⟨t, hrun, hfault, hp, hn⟩ := runCommands_decC_counts htext hf (by simp [hpos])
  exact ⟨t, hrun, hfault, by simpa [hphase] using hp, by simpa [hpos] using hn⟩

/-- Settles O55, arm by arm. -/
theorem historiesGrowByFewWords : Obligations.HistoriesGrowByFewWords := by
  intro i s t h
  cases i with
  | encB b =>
    obtain ⟨-, rfl⟩ | ⟨-, rfl⟩ | ⟨-, rfl⟩ := execEncB_cases h
    · exact ⟨[_], [], rfl, by simp, .inl rfl, rfl⟩
    · exact ⟨[_], [], rfl, by simp, .inl rfl, rfl⟩
    · exact ⟨[_] ++ [_], [], List.append_assoc _ _ _, by simp, .inr rfl, rfl⟩
  | encEnd =>
    obtain ⟨vs, -, hvs, rfl⟩ := execEncEnd_cases h
    have hlength : vs.length = 0 ∨ vs.length = 2 ∨ vs.length = 3 := by
      rw [hvs]
      split
      · exact .inl rfl
      · split
        · exact .inr (.inr rfl)
        · exact .inr (.inl rfl)
    refine ⟨vs.map (fun v => dataWord (alpha v)) ++ [eomWord], [], by simp, by simp, ?_, rfl⟩
    simp only [List.length_append, List.length_map, List.length_singleton]
    omega
  | decC c =>
    obtain ⟨-, rfl⟩ | ⟨-, -, rfl⟩ | ⟨-, -, rfl⟩ := execDecC_cases h
    · exact ⟨[], [], by simp, by simp, rfl, by simp⟩
    · obtain ⟨bs, hlength, hout⟩ := takeCode_decOut (revCode c) s
      exact ⟨[], bs.map dataWord, by simp, hout, rfl, by simpa using hlength⟩
    · exact ⟨[], [], by simp, by simp, rfl, by simp⟩
  | decEnd =>
    obtain ⟨-, rfl⟩ | ⟨-, -, rfl⟩ | ⟨-, -, rfl⟩ := execDecEnd_cases h
    · exact ⟨[], [], by simp, by simp, rfl, by simp⟩
    · exact ⟨[], [eomWord], by simp, rfl, rfl, by simp⟩
    · exact ⟨[], [], by simp, by simp, rfl, by simp⟩

/-! ### The end of a message and the end of a run -/

theorem execEncEnd_resets {s t : State} (h : execEncEnd s = .next t) : t.encPhase = 0 ∧ t.encRes = 0 := by
  obtain ⟨vs, -, -, rfl⟩ := execEncEnd_cases h
  exact ⟨rfl, rfl⟩

/-- A DEC.END after which there is no fault came at the end of a group. -/
theorem execDecEnd_resets {s t : State} (hs : s.DecInv) (h : execDecEnd s = .next t) (hf : t.decFault = false) :
    t.decPhase = 0 ∧ t.decRes = 0 ∧ t.decPos = 0 := by
  obtain ⟨hfault, rfl⟩ | ⟨-, hp, rfl⟩ | ⟨-, -, rfl⟩ := execDecEnd_cases h
  · simp [hfault] at hf
  · exact ⟨hp, hs.1 hp, rfl⟩
  · simp at hf

/-- Settles O54; the fault registers are 0 by their invariant, which DEC.END keeps. -/
theorem endLeavesResetState : Obligations.EndLeavesResetState := by
  refine ⟨fun s t h => execEncEnd_resets h, fun s t hs h hf => ?_⟩
  obtain ⟨-, hdec, hfault, -⟩ := hs
  obtain ⟨hphase, hres, hpos⟩ := execDecEnd_resets hdec h hf
  exact ⟨hphase, hres, hpos, (execDecEnd_faultInv hfault h).1 hf⟩

theorem lastCommand_append_reset (unit : Instr → Bool) (es : List Event) :
    lastCommand unit (es ++ [.reset]) = none := by
  simp [lastCommand, afterLastReset]

theorem lastCommand_append_command (unit : Instr → Bool) (es : List Event) (w : CommandWord) :
    lastCommand unit (es ++ [.command w]) = if unit (decode w) then some (decode w) else lastCommand unit es := by
  cases hw : unit (decode w) <;> simp [lastCommand, afterLastReset, Event.instr?, hw]

/-- What relates the last command of a unit since the last reset to the state, at the end of every run: it holds after a
reset, a command of the unit makes it hold of that command, and a command of the other unit keeps it. -/
theorem run_induction {unit : Instr → Bool} {P : Option Instr → State → Prop}
    (reset : ∀ u, P none (resetEvent u))
    (own : ∀ last i u t, unit i = true → exec i u = .next t → P last u → P (some i) t)
    (other : ∀ last i u t, unit i = false → exec i u = .next t → P last u → P last t)
    {es : List Event} {s t : State} (hrun : IsRun es) (h : runEvents es s = .next t) :
    P (lastCommand unit es) t := by
  obtain ⟨fs, rfl⟩ := List.head?_eq_some_iff.mp hrun
  induction fs using List.reverseRecOn generalizing t with
  | nil =>
    obtain ⟨u, hu, hnil⟩ := andThen_eq_next.mp h
    cases hu
    cases hnil
    exact reset s
  | append_singleton fs e ih =>
    rw [← List.cons_append] at h ⊢
    rw [runEvents_append] at h
    obtain ⟨u, hu, he⟩ := andThen_eq_next.mp h
    obtain ⟨v, hv, hnil⟩ := andThen_eq_next.mp he
    cases hnil
    have hlast := ih rfl hu
    cases e with
    | reset =>
      cases hv
      rw [lastCommand_append_reset]
      exact reset u
    | command w =>
      simp only [applyEvent] at hv
      split at hv
      · rw [lastCommand_append_command]
        split
        · exact own _ _ _ _ ‹_› hv hlast
        · exact other _ _ _ _ (by simpa using ‹¬unit (decode w) = true›) hv hlast
      · cases hv

/-- No message is under way in the unit whose last command is `last`, and whose END is `unitEnd`. -/
def Closed (unitEnd : Instr) (last : Option Instr) : Prop := last = none ∨ last = some unitEnd

/-- ENC at its reset values wherever no message is under way. -/
def EncClosedReset (last : Option Instr) (t : State) : Prop :=
  Closed .encEnd last → t.encPhase = 0 ∧ t.encRes = 0

/-- The DEC invariants that hold for every POS_WIDTH, and DEC at its reset values wherever no message is under
way and there is no fault. -/
def DecClosedReset (last : Option Instr) (t : State) : Prop :=
  t.DecInv ∧ t.FaultInv
    ∧ (t.decFault = false → Closed .decEnd last → t.decPhase = 0 ∧ t.decRes = 0 ∧ t.decPos = 0)

theorem run_encClosedReset {es : List Event} {s t : State} (hrun : IsRun es) (h : runEvents es s = .next t) :
    EncClosedReset (lastCommand Instr.isEnc es) t := by
  refine run_induction (fun u _ => ⟨rfl, rfl⟩) ?own ?other hrun h
  case own =>
    intro last i u t hi h _ hclosed
    obtain hnone | hend := hclosed
    · cases hnone
    · cases hend
      exact execEncEnd_resets h
  case other =>
    intro last i u t hi h hu
    rw [exec_dec_frame (isEnc_eq_false.mp hi) h]
    exact hu

theorem run_decClosedReset {es : List Event} {s t : State} (hrun : IsRun es) (h : runEvents es s = .next t) :
    DecClosedReset (lastCommand Instr.isDec es) t := by
  refine run_induction (fun u => ?reset) ?own ?other hrun h
  case reset =>
    exact ⟨resetAt_decInv u.posWidth, resetAt_faultInv u.posWidth, fun _ _ => ⟨rfl, rfl, rfl⟩⟩
  case own =>
    intro last i u t hi h hu
    obtain ⟨hdec, hfault, -⟩ := hu
    refine ⟨exec_dec_decInv hi hdec h, exec_dec_faultInv hi hfault h, fun hf hclosed => ?_⟩
    obtain hnone | hend := hclosed
    · cases hnone
    · cases hend
      exact execDecEnd_resets hdec h hf
  case other =>
    intro last i u t hi h hu
    rw [exec_enc_frame (isDec_eq_false.mp hi) h]
    exact hu

theorem status_of_registersReset {s : State} (hs : s.RegistersReset) : s.status = 0x00 := by
  obtain ⟨henc, -, hdec, -, -, hfault, hcause, -, -⟩ := hs
  simp [State.status, henc, hdec, hfault, hcause]

/-- Settles O59, unit by unit. No premise on POS_WIDTH is needed: the position is cleared, not counted back to 0. -/
theorem goodEndIsResetState : Obligations.GoodEndIsResetState := by
  intro es s t hrun h hgood
  obtain ⟨hf, hencClosed, hdecClosed⟩ := hgood
  obtain ⟨hencPhase, hencRes⟩ := run_encClosedReset hrun h hencClosed
  obtain ⟨-, hfaultInv, hdecReset⟩ := run_decClosedReset hrun h
  obtain ⟨hdecPhase, hdecRes, hdecPos⟩ := hdecReset hf hdecClosed
  have hreset : t.RegistersReset :=
    ⟨hencPhase, hencRes, hdecPhase, hdecRes, hdecPos, hf, hfaultInv.1 hf⟩
  exact ⟨hreset, status_of_registersReset hreset⟩

end Sys2Proof.Machine
end

section
/-! PROOFS. The tables and the command port (spec/20_memory.md R28 to R41): ALPHA and REV, the group identities, what a
step takes from the port, and the decoder on a whole text, which it reads through REV (spec/41_decode.md R74 item 1). -/

namespace Sys2Proof.Machine

/-! ### ALPHA (R28, R29) -/

/-- The formula of R28, on numbers. -/
theorem alpha_toNat : ∀ v : Code, (alpha v).toNat =
    if v.toNat ≤ 25 then 0x41 + v.toNat
    else if v.toNat ≤ 51 then 0x61 + (v.toNat - 26)
    else if v.toNat ≤ 61 then 0x30 + (v.toNat - 52)
    else if v.toNat = 62 then 0x2B else 0x2F := by decide

/-- REV gives the index back, so no two entries of ALPHA are equal. -/
theorem alpha_injective : Function.Injective alpha :=
  Function.LeftInverse.injective revCode_alpha

/-- PAD has no code and every entry of ALPHA has one. -/
theorem alpha_ne_pad (v : Code) : alpha v ≠ Config.pad := by
  intro h
  have hpad : revValid Config.pad = true := h ▸ revValid_alpha v
  exact absurd hpad (by decide)

theorem alpha_getLsbD_seven : ∀ v : Code, (alpha v).getLsbD 7 = false := by decide

/-- Settles O28: the formula, and the 64 codes by evaluation of it. -/
theorem alphaIsTheTable : Obligations.AlphaIsTheTable :=
  ⟨alpha_toNat, by decide⟩

/-- Settles O29: a code in REV tells the entries apart from each other and from PAD. -/
theorem alphaEntriesDistinct : Obligations.AlphaEntriesDistinct :=
  ⟨fun _ _ h => alpha_injective h, fun v => ⟨alpha_ne_pad v, alpha_getLsbD_seven v⟩⟩

/-! ### REV (R31 to R33) -/

theorem alpha_revCode : ∀ c : Byte, revValid c = true → alpha (revCode c) = c := by decide

theorem revCode_of_invalid : ∀ c : Byte, revValid c = false → revCode c = 0 := by decide

/-- The characters below `+` and above `z` have no code; the control characters are among them (R32). -/
theorem revValid_outside : ∀ c : Byte, c < 0x2B ∨ 0x7B ≤ c → revValid c = false := by decide

theorem rev_alpha (v : Code) : rev (alpha v) = 1#1 ++ v := by
  rw [rev_eq, revValid_alpha, revCode_alpha]
  rfl

/-- A character that is no entry of ALPHA has no code: a valid one is the entry at the index of its code. -/
theorem revValid_eq_false_of_not_entry {c : Byte} (hc : ∀ v : Code, alpha v ≠ c) : revValid c = false := by
  by_contra hvalid
  exact hc _ (alpha_revCode c (by simpa using hvalid))

theorem rev_of_not_entry {c : Byte} (hc : ∀ v : Code, alpha v ≠ c) : rev c = 0#1 ++ 0b000000#6 := by
  have hvalid := revValid_eq_false_of_not_entry hc
  rw [rev_eq, hvalid, revCode_of_invalid c hvalid]
  rfl

/-- The ranges of R31, on numbers. -/
theorem rev_toNat : ∀ c : Byte, (rev c).toNat =
    if c.toNat ≤ 0x2A then 0
    else if c.toNat = 0x2B then 64 + 62
    else if c.toNat ≤ 0x2E then 0
    else if c.toNat = 0x2F then 64 + 63
    else if c.toNat ≤ 0x39 then 64 + (c.toNat - 0x30 + 52)
    else if c.toNat ≤ 0x40 then 0
    else if c.toNat ≤ 0x5A then 64 + (c.toNat - 0x41)
    else if c.toNat ≤ 0x60 then 0
    else if c.toNat ≤ 0x7A then 64 + (c.toNat - 0x61 + 26)
    else 0 := by decide

theorem rev_valid_count : ((List.range 256).filter fun n => (rev (BitVec.ofNat 8 n)).getLsbD 6).length = 64 := by
  decide

/-- Settles O30, clause by clause. -/
theorem revIsTheTable : Obligations.RevIsTheTable :=
  ⟨rev_alpha, fun _ hc => rev_of_not_entry hc, rev_valid_count, rev_toNat⟩

/-- Settles O31; the control characters and the codes from 0x80 lie outside `+` to `z`. -/
theorem revRefusesAndInverts : Obligations.RevRefusesAndInverts := by
  refine ⟨by decide, fun c hc => revValid_outside c ?_, revCode_alpha, alpha_revCode⟩
  obtain hlow | hhigh := hc
  · exact .inl (BitVec.lt_trans hlow (by decide : (0x20 : Byte) < 0x2B))
  · exact .inr (BitVec.le_trans (by decide : (0x7B : Byte) ≤ 0x7F) hhigh)

/-! ### The group identities (R34, R35) -/

namespace Codec

/-- The bits of a sequence of codes, 6 each, its first bit first. -/
def codeBits (V : List Code) : List Bool := V.flatMap fun v => toBits v.toNat 6

/-- Regrouping the bits of bytes in runs of 8 gives the bytes back. -/
theorem values8_bits8 (x : List Byte) : values8 (bits8 x) = x := by
  induction x with
  | nil => rfl
  | cons b x ih => rw [bits8, List.flatMap_cons, values8_append, ← bits8, ih]

/-- Regrouping the bits of codes in runs of 6 gives the codes back. -/
theorem values6_codeBits (V : List Code) : values6 (codeBits V) = V := by
  induction V with
  | nil => rfl
  | cons v V ih => rw [codeBits, List.flatMap_cons, values6_append, ← codeBits, ih]

/-- The four symbols spell the 24 bits of the three bytes, boundary by boundary. -/
theorem codeBits_groupSyms (b0 b1 b2 : Byte) : codeBits (groupSyms b0 b1 b2) = bits8 [b0, b1, b2] := by
  simp only [codeBits, bits8, groupSyms, List.flatMap_cons, List.flatMap_nil, List.append_nil]
  rw [bits_sym0 b0, List.append_assoc, ← List.append_assoc (toBits _ 2), bits_sym1, List.append_assoc, bits_sym2]

/-- The three bytes spell the 24 bits of the four symbols, boundary by boundary. -/
theorem bits8_groupBytes (s0 s1 s2 s3 : Code) : bits8 (groupBytes s0 s1 s2 s3) = codeBits [s0, s1, s2, s3] := by
  simp only [codeBits, bits8, groupBytes, List.flatMap_cons, List.flatMap_nil, List.append_nil]
  rw [← List.append_assoc (toBits s0.toNat 6), bits_byte0, List.append_assoc, ← List.append_assoc (toBits _ 4),
    bits_byte1, List.append_assoc, bits_byte2]

/-- Two sequences of bytes that spell the same bits are equal. -/
theorem bits8_injective : Function.Injective bits8 := Function.LeftInverse.injective values8_bits8

/-- Two sequences of codes that spell the same bits are equal. -/
theorem codeBits_injective : Function.Injective codeBits := Function.LeftInverse.injective values6_codeBits

end Codec

/-- Settles O32: both maps keep the bits, so they undo each other. -/
theorem groupIdentities : Obligations.GroupIdentities := by
  refine ⟨Codec.codeBits_groupSyms, Codec.bits8_groupBytes, fun b0 b1 b2 => ?bytes, fun s0 s1 s2 s3 => ?codes⟩
  case bytes =>
    refine ⟨_, _, _, _, rfl, Codec.bits8_injective ?_⟩
    rw [Codec.bits8_groupBytes]
    exact Codec.codeBits_groupSyms b0 b1 b2
  case codes =>
    refine ⟨_, _, _, rfl, Codec.codeBits_injective ?_⟩
    rw [Codec.codeBits_groupSyms]
    exact Codec.bits8_groupBytes s0 s1 s2 s3

/-! ### The command port (R40, R41) -/

/-- A step takes the first pending event. -/
theorem step_of_port_cons {s : State} {e : Event} {es : List Event} (h : s.port = e :: es) :
    step s = applyEvent e { s with port := es } := by
  simp only [step, takeEvent, h]

theorem applyEvent_command {s : State} (w : CommandWord) (h : s.wasReset = true) :
    applyEvent (.command w) s = exec (decode w) s := by
  simp only [applyEvent, h, if_true]

/-- Settles O6: a step takes the first event, and the event of a command is exec of what its word decodes to. -/
theorem stepRunsDecodedCommand : Obligations.StepRunsDecodedCommand := by
  intro s w es hport hreset
  rw [step_of_port_cons hport]
  exact applyEvent_command w hreset

theorem withFetchWord_of_tableWord {nbits w : Nat} {c : CommandWord} (h : tableWord nbits w = some c) (s : State) :
    s.withFetchWord nbits w = sendCommand c s := by
  simp only [State.withFetchWord, h]

/-- Settles O7: the word stands first on the port, and taking it leaves `s`. -/
theorem fetchedTableWordRuns : Obligations.FetchedTableWordRuns := by
  intro s nbits w i hdecode hreset
  obtain ⟨c, hword, rfl⟩ := Option.map_eq_some_iff.mp hdecode
  rw [withFetchWord_of_tableWord hword]
  exact stepRunsDecodedCommand (sendCommand c s) c s.port rfl hreset

/-- An ENC command runs on the ENC part of the state alone, its stop included. -/
theorem exec_enc_withEncOf {i : Instr} (hi : i.isEnc = true) (u s : State) :
    exec i (u.withEncOf s) = andThen (exec i s) fun t => .next (u.withEncOf t) := by
  obtain ⟨b, rfl⟩ | rfl := isEnc_cases hi
  · exact execEncB_withEncOf b u s
  · exact execEncEnd_withEncOf u s

/-- A command runs the same with any other events pending, its stop included, and leaves them. -/
theorem exec_withPort (i : Instr) (s : State) (es : List Event) :
    exec i { s with port := es } = andThen (exec i s) fun t => .next { t with port := es } := by
  cases hi : i.isEnc with
  | true =>
    have hpart := exec_enc_withEncOf hi { s with port := es } s
    cases h : exec i s with
    | next t =>
      rw [h] at hpart
      rw [exec_enc_frame hi h]
      exact hpart
    | fault x => rwa [h] at hpart
    | refused x => rwa [h] at hpart
  | false =>
    obtain ⟨t, h⟩ := exec_dec_completes (isEnc_eq_false.mp hi) s
    have hpart := exec_withDecOf (isEnc_eq_false.mp hi) h { s with port := es }
    rw [h, exec_dec_frame (isEnc_eq_false.mp hi) h]
    exact hpart

theorem exec_port {i : Instr} {s t : State} (h : exec i s = .next t) : t.port = s.port := by
  cases hi : i.isEnc with
  | true => rw [exec_enc_frame hi h]; rfl
  | false => rw [exec_dec_frame (isEnc_eq_false.mp hi) h]; rfl

/-- Settles O11: each command stays in its unit's part of the state, and the port is in neither. -/
theorem commandsLeaveThePort : Obligations.CommandsLeaveThePort := by
  intro i s t es h
  exact ⟨exec_port h, by rw [exec_withPort, h, andThen_next]⟩

/-- An event takes the same effect with any other events pending behind it, its stop included, and leaves them. -/
theorem applyEvent_withPort (e : Event) (s : State) (es : List Event) :
    applyEvent e { s with port := es } = andThen (applyEvent e s) fun t => .next { t with port := es } := by
  cases e with
  | reset => rfl
  | command w =>
    by_cases hreset : s.wasReset = true
    · have hcommand : applyEvent (.command w) { s with port := es } = exec (decode w) { s with port := es } :=
        applyEvent_command w hreset
      rw [hcommand, applyEvent_command w hreset, exec_withPort]
    · simp [applyEvent, hreset]

/-- Settles O12, by induction on the events: what is pending behind an event does not change its effect. -/
theorem stepsComposeInPortOrder : Obligations.StepsComposeInPortOrder := by
  intro es rest s
  induction es generalizing s with
  | nil => rfl
  | cons e es ih =>
    rw [List.length_cons, core_run_succ, step_of_port_cons (es := es ++ rest) rfl, runEvents,
      applyEvent_withPort e s (es ++ rest), applyEvent_withPort e s rest]
    cases applyEvent e s with
    | next t => exact ih t
    | fault x => rfl
    | refused x => rfl

/-! ### The DEC commands of a mixed sequence (R107) -/

/-- DEC commands run on the DEC part of the state, whatever stands beside it. -/
theorem runCommands_withDecOf {is : List Instr} {s t : State} (his : ∀ i ∈ is, i.isDec = true)
    (h : runCommands is s = .next t) (u : State) : runCommands is (u.withDecOf s) = .next (u.withDecOf t) := by
  induction is generalizing s with
  | nil =>
    cases h
    rfl
  | cons i is ih =>
    obtain ⟨hi, his⟩ := List.forall_mem_cons.mp his
    obtain ⟨v, hexec, hrun⟩ := andThen_eq_next.mp h
    rw [runCommands, exec_withDecOf hi hexec, andThen_next]
    exact ih his hrun

/-- From a legal ENC_PHASE, ENC commands mixed into DEC commands let them complete, and leave the DEC part of the end. -/
theorem runCommands_of_filter_isDec {is : List Instr} {s t : State} (hs : s.encPhase ≠ 3)
    (h : runCommands (is.filter Instr.isDec) s = .next t) : ∃ u : State, runCommands is s = .next (u.withDecOf t) := by
  induction is generalizing s t with
  | nil =>
    cases h
    exact ⟨s, rfl⟩
  | cons i is ih =>
    cases hi : i.isDec with
    | true =>
      rw [List.filter_cons_of_pos hi] at h
      obtain ⟨v, hexec, hrun⟩ := andThen_eq_next.mp h
      have hv : v.encPhase ≠ 3 := by rwa [exec_dec_frame hi hexec]
      obtain ⟨u, hu⟩ := ih hv hrun
      exact ⟨u, by rw [runCommands, hexec, andThen_next, hu]⟩
    | false =>
      rw [List.filter_cons_of_neg (by simp [hi])] at h
      have henc := isDec_eq_false.mp hi
      obtain ⟨v, hexec⟩ := exec_completes i hs
      have hdec : v.withDecOf s = v := by
        rw [exec_enc_frame henc hexec]
        rfl
      have hrun := runCommands_withDecOf (fun _ hj => (List.mem_filter.mp hj).2) h v
      rw [hdec] at hrun
      obtain ⟨u, hu⟩ := ih (exec_enc_encInv henc hexec).1 hrun
      refine ⟨u, ?_⟩
      rw [runCommands, hexec, andThen_next, hu]
      rfl

/-! ### The decoder on a text (R71, R74) -/

/-- The state after the characters of a text, each taken as DEC.C takes an alphabet character. -/
def takeText (text : List Byte) (s : State) : State :=
  text.foldl (fun u c => advancePos (takeCode (revCode c) u)) s

@[simp] theorem takeText_nil (s : State) : takeText [] s = s := rfl

@[simp] theorem takeText_cons (c : Byte) (text : List Byte) (s : State) :
    takeText (c :: text) s = takeText text (advancePos (takeCode (revCode c) s)) := rfl

/-- Without a fault, DEC.C on alphabet characters takes them. -/
theorem runCommands_decC_eq_takeText {text : List Byte} {s : State} (htext : ∀ c ∈ text, revValid c = true)
    (hf : s.decFault = false) : runCommands (text.map .decC) s = .next (takeText text s) := by
  induction text generalizing s with
  | nil => rfl
  | cons c text ih =>
    obtain ⟨hc, htext⟩ := List.forall_mem_cons.mp htext
    rw [List.map_cons, runCommands, exec_decC, execDecC_valid hf hc, andThen_next, ih htext (by simpa using hf),
      takeText_cons]

theorem takeText_decInv (text : List Byte) {s : State} (hs : s.DecInv) : (takeText text s).DecInv := by
  induction text generalizing s with
  | nil => exact hs
  | cons c text ih => exact ih (takeCode_decInv (revCode c) s)

/-- From the start of a group, a text sends the bytes that its characters complete, group by group. -/
theorem takeText_decOut (text : List Byte) {s : State} (hs : s.decPhase = 0) :
    (takeText text s).decOut = s.decOut ++ (Codec.completedBytes text).map dataWord := by
  induction text using Codec.text_induction generalizing s with
  | nil => simp [Codec.completedBytes_nil]
  | one a => simp [Codec.completedBytes_one, takeCode, hs]
  | two a b => simp [Codec.completedBytes_two, takeCode, hs]
  | three a b c => simp [Codec.completedBytes_three, takeCode, hs, decRes_low4]
  | group a b c d text ih =>
    simp only [takeText_cons]
    rw [ih (by simp [takeCode_decPhase, hs]), Codec.completedBytes_cons4]
    simp [takeCode, hs, decRes_low4, decRes_low2, groupBytes]

/-- What a value of decode says of the text. -/
theorem decode_eq_some {text y : List Byte} (h : Codec.decode text = some y) :
    (∀ c ∈ text, revValid c = true) ∧ text.length % 4 = 0 ∧ y = Codec.completedBytes text := by
  simp only [Codec.decode, Option.ite_none_right_eq_some] at h
  obtain ⟨hdomain, hy⟩ := h
  simp only [Codec.inDomain, Bool.and_eq_true, List.all_eq_true, beq_iff_eq] at hdomain
  obtain ⟨htext, hlength⟩ := hdomain
  exact ⟨htext, hlength, by simpa using hy.symm⟩

theorem execDecEnd_phase0 {s : State} (hf : s.decFault = false) (hp : s.decPhase = 0) :
    execDecEnd s = .next (clearPos (emitDecEom s)) := by
  simp [execDecEnd, hf, hp]

/-- Settles O47: the DEC commands alone decode the text, and the ENC commands mixed in leave the DEC part. The bound on the
length is not used: on its domain decode reports no position. -/
theorem decoderComputesDecode : Obligations.DecoderComputesDecode := by
  intro text y is s henc hphase hres hpos hf _ hfilter hdecode
  obtain ⟨htext, hlength, rfl⟩ := decode_eq_some hdecode
  have hrun := runCommands_decC_eq_takeText htext hf
  obtain ⟨t, hrun', hfault, hcount, -⟩ := runCommands_decC_counts htext hf (by simp [hpos])
  obtain rfl : takeText text s = t := by simpa [hrun] using hrun'
  have hend : (takeText text s).decPhase = 0 := by
    apply BitVec.eq_of_toNat_eq
    simpa [hphase, hlength] using hcount
  have hinv : (takeText text s).DecInv :=
    takeText_decInv text ⟨fun _ => hres, by simp [hphase], by simp [hphase]⟩
  have hdec : runCommands (is.filter Instr.isDec) s = .next (clearPos (emitDecEom (takeText text s))) := by
    rw [hfilter, runCommands_append, hrun, andThen_next, runCommands, exec_decEnd, execDecEnd_phase0 hfault hend]
    rfl
  obtain ⟨u, hu⟩ := runCommands_of_filter_isDec henc hdec
  refine ⟨_, hu, ?_, hfault, hend, hinv.1 hend, rfl⟩
  rw [← takeText_decOut text hphase]
  rfl

end Sys2Proof.Machine
end

section
/-! PROOFS. The words at the ports (spec/30_encoding.md R42 to R53): command words and the assembler's expansions to them,
the STATUS word, and the words of the two output ports. -/

namespace Sys2Proof.Machine

/-! ### Command words (R42 to R46) -/

@[simp] theorem opField_append (op : BitVec 2) (d : Byte) : opField (op ++ d) = op := BitVec.extractLsb'_append_eq_left

@[simp] theorem dataField_append (op : BitVec 2) (d : Byte) : dataField (op ++ d) = d :=
  BitVec.extractLsb'_append_eq_right

theorem opField_append_dataField (w : CommandWord) : opField w ++ dataField w = w := by
  rw [opField, dataField, BitVec.extractLsb'_append_extractLsb'_eq_extractLsb' (by rfl)]
  exact BitVec.extractLsb'_eq_self

theorem append_data_inj (op : BitVec 2) {d d' : Byte} : (op ++ d : CommandWord) = op ++ d' ↔ d = d' :=
  BitVec.append_right_inj op

/-- Every command word is one of the four op values with a data field behind it, so what is said of words is said row by row
(R43, R45). -/
theorem commandWord_cases (w : CommandWord) :
    ∃ d : Byte, w = 0b00#2 ++ d ∨ w = 0b01#2 ++ d ∨ w = 0b10#2 ++ d ∨ w = 0b11#2 ++ d := by
  refine ⟨dataField w, ?_⟩
  rw [← opField_append_dataField w, dataField_append]
  obtain h | h | h | h := phase_cases (opField w) <;> simp [h]

@[simp] theorem decode_append_encB (d : Byte) : decode (0b00#2 ++ d) = .encB d := by simp [decode]
@[simp] theorem decode_append_decC (d : Byte) : decode (0b01#2 ++ d) = .decC d := by simp [decode]
@[simp] theorem decode_append_encEnd (d : Byte) : decode (0b10#2 ++ d) = .encEnd := by simp [decode]
@[simp] theorem decode_append_decEnd (d : Byte) : decode (0b11#2 ++ d) = .decEnd := by simp [decode]

@[simp] theorem encode_encB (b : Byte) : encode (.encB b) = 0b00#2 ++ b := rfl
@[simp] theorem encode_decC (c : Byte) : encode (.decC c) = 0b01#2 ++ c := rfl
theorem encode_encEnd : encode .encEnd = 0b10#2 ++ 0x00#8 := rfl
theorem encode_decEnd : encode .decEnd = 0b11#2 ++ 0x00#8 := rfl

/-- Only in an END word, where bit 9 is 1, does being canonical ask anything of data (R45). -/
theorem isCanonical_append (op : BitVec 2) (d : Byte) :
    isCanonical (op ++ d) = true ↔ (op.getLsbD 1 = true → d = 0x00) := by
  have hbit : BitVec.getLsbD (w := 10) (op ++ d) 9 = op.getLsbD 1 := BitVec.getLsbD_append (x := op) (y := d) (i := 9)
  have hdata : BitVec.extractLsb' (n := 10) 0 8 (op ++ d) = d := dataField_append op d
  rw [isCanonical, hbit, hdata]
  cases op.getLsbD 1 <;> simp

theorem decode_encode (i : Instr) : decode (encode i) = i := by
  cases i with
  | encB b => exact decode_append_encB b
  | decC c => exact decode_append_decC c
  | encEnd => exact decode_append_encEnd 0x00
  | decEnd => exact decode_append_decEnd 0x00

theorem isCanonical_encode (i : Instr) : isCanonical (encode i) = true := by
  rw [encode, isCanonical_append]
  cases i <;> simp [Instr.op, Instr.data]

/-- Data 0x00 is the data of an END word exactly when the word is canonical. -/
theorem append_zero_eq_iff {op : BitVec 2} (hop : op.getLsbD 1 = true) (d : Byte) :
    (op ++ 0x00#8 : CommandWord) = op ++ d ↔ isCanonical (op ++ d) = true := by
  rw [append_data_inj, isCanonical_append]
  exact ⟨fun h _ => h.symm, fun h => (h hop).symm⟩

/-- Encoding gives back op always, and data where the command has an operand; an END command it gives data 0x00 (R45). -/
theorem encode_decode_eq_iff (w : CommandWord) : encode (decode w) = w ↔ isCanonical w = true := by
  obtain ⟨d, rfl | rfl | rfl | rfl⟩ := commandWord_cases w
  · simp [isCanonical_append]
  · simp [isCanonical_append]
  · rw [decode_append_encEnd, encode_encEnd]
    exact append_zero_eq_iff rfl d
  · rw [decode_append_decEnd, encode_decEnd]
    exact append_zero_eq_iff rfl d

/-- Settles O4: each direction is read off the op and data of the word. -/
theorem decodeAndEncodeAgree : Obligations.DecodeAndEncodeAgree :=
  ⟨fun i _ => ⟨decode_encode i, isCanonical_encode i⟩, encode_decode_eq_iff⟩

/-- Settles O1, by evaluation. -/
theorem specWordsDecode : Obligations.SpecWordsDecode := by
  unfold Obligations.SpecWordsDecode
  decide

/-- The mask of the opcode table keeps op and clears data (R46). -/
theorem append_and_opMask (op : BitVec 2) (d : Byte) : (op ++ d : CommandWord) &&& 0x300 = op ++ 0x00#8 := by
  have h : (op ++ d) &&& (0b11#2 ++ 0x00#8) = op ++ 0x00#8 := by
    rw [BitVec.and_append, BitVec.and_zero]
    congr 1
    exact BitVec.and_allOnes
  exact h

/-- Settles O2: the four op values with data cleared are the four match values. -/
theorem wordSpellsItsRow : Obligations.WordSpellsItsRow := by
  intro w
  rw [← dataField]
  obtain ⟨d, rfl | rfl | rfl | rfl⟩ := commandWord_cases w <;> rw [append_and_opMask] <;> simp

/-- The effect of a command event is that of the command its word decodes to. -/
theorem applyEvent_command_congr {w w' : CommandWord} (h : decode w = decode w') (s : State) :
    applyEvent (.command w) s = applyEvent (.command w') s := by
  rw [applyEvent, applyEvent, h]

theorem decodeNat_of_lt {w : Nat} (hw : w < 1024) : decodeNat w = .ok (decode (BitVec.ofNat 10 w)) := by
  simp [decodeNat, commandWordOk, hw]

/-- What a line expands to: resets, and commands by their canonical words (R45, R50, R51). -/
theorem mem_expand {l : Line} {e : Event} (h : e ∈ l.expand) : e = .reset ∨ ∃ i, e = commandEvent i := by
  cases l <;> simp only [Line.expand, List.mem_append, List.mem_map, List.mem_singleton] at h
  case reset => exact .inl h
  case encMsg operand | decMsg operand =>
    obtain ⟨n, -, rfl⟩ | rfl := h
    · exact .inr ⟨_, rfl⟩
    · exact .inr ⟨_, rfl⟩
  all_goals exact .inr ⟨_, h⟩

theorem isCanonical_of_mem_expand {l : Line} {w : CommandWord} (h : .command w ∈ l.expand) : isCanonical w = true := by
  obtain hreset | ⟨i, hi⟩ := mem_expand h
  · cases hreset
  · cases hi
    exact isCanonical_encode i

/-- Settles O3: decoding does not read the data of an END word, and the effect is that of the decoded command. -/
theorem endDataIgnored : Obligations.EndDataIgnored := by
  refine ⟨fun w hw => ⟨_, decodeNat_of_lt hw⟩, fun d => ⟨decode_append_encEnd d, decode_append_decEnd d⟩,
    fun d d' s => ⟨?_, ?_⟩, rfl, rfl, fun l w => isCanonical_of_mem_expand⟩
  · exact applyEvent_command_congr ((decode_append_encEnd d).trans (decode_append_encEnd d').symm) s
  · exact applyEvent_command_congr ((decode_append_decEnd d).trans (decode_append_decEnd d').symm) s

/-! ### The assembler (R50, R51) -/

/-- A string is read up to the first quote, which its own characters are not. -/
theorem readString_append_quote {cs : List Char} (rest : List Char)
    (hcs : ∀ c ∈ cs, isPrintable c = true ∧ c ≠ '"') :
    readString (cs ++ '"' :: rest) = some (cs.map Char.toNat, rest) := by
  induction cs with
  | nil => simp [readString]
  | cons c cs ih =>
    obtain ⟨⟨hprintable, hquote⟩, htail⟩ := List.forall_mem_cons.mp hcs
    simp [readString, hprintable, hquote, ih htail]

/-- Settles O5: the operand of a byte is the byte. -/
theorem pseudoInstructionsExpand : Obligations.PseudoInstructionsExpand := by
  refine ⟨fun bs => ?_, fun text => ?_, rfl, rfl, rfl, rfl, fun cs rest => readString_append_quote rest⟩
  · simp [Line.expand, commandEvent, Function.comp_def, encode_encEnd]
  · simp [Line.expand, commandEvent, Function.comp_def, encode_decEnd]

/-! ### The STATUS word (R48, R49, R53) -/

/-! Where each field stands in the concatenation of R48: what is behind a field is below it. -/

@[simp] theorem status_decFault (s : State) : s.status.getLsbD 0 = s.decFault :=
  BitVec.getLsbD_append.trans (BitVec.getLsbD_ofBool s.decFault 0)

@[simp] theorem status_decCause (s : State) : s.status.extractLsb' 1 2 = s.decCause :=
  (BitVec.extractLsb'_append_eq_of_le (by decide)).trans BitVec.extractLsb'_append_eq_right

theorem status_bit3 (s : State) : s.status.getLsbD 3 = false :=
  BitVec.getLsbD_append.trans (BitVec.getLsbD_append.trans BitVec.getLsbD_append)

@[simp] theorem status_encPhase (s : State) : s.status.extractLsb' 4 2 = s.encPhase :=
  (BitVec.extractLsb'_append_eq_of_le (by decide)).trans <| (BitVec.extractLsb'_append_eq_of_le (by decide)).trans <|
    (BitVec.extractLsb'_append_eq_of_le (by decide)).trans BitVec.extractLsb'_append_eq_right

@[simp] theorem status_decPhase (s : State) : s.status.extractLsb' 6 2 = s.decPhase :=
  (BitVec.extractLsb'_append_eq_of_le (by decide)).trans <| (BitVec.extractLsb'_append_eq_of_le (by decide)).trans <|
    (BitVec.extractLsb'_append_eq_of_le (by decide)).trans BitVec.extractLsb'_append_eq_left

@[simp] theorem faultLine_eq (s : State) : s.faultLine = s.decFault := status_decFault s

/-- DEC_FAULT and the causes that can stand beside it (R48, R88). -/
theorem decFault_decCause_cases {s : State} (hs : s.FaultInv) :
    (s.decFault = false ∧ s.decCause = 0) ∨ (s.decFault = true ∧ (s.decCause = 1 ∨ s.decCause = 2)) := by
  obtain ⟨hnone, hfault⟩ := hs
  cases hf : s.decFault with
  | false => exact .inl ⟨rfl, (hnone hf).1⟩
  | true => exact .inr ⟨rfl, (hfault hf).imp And.left And.left⟩

theorem decCause_ne_three {s : State} (hs : s.FaultInv) : s.decCause ≠ 3 := by
  obtain ⟨-, h⟩ | ⟨-, h | h⟩ := decFault_decCause_cases hs <;> simp [h]

theorem decFault_iff_decCause {s : State} (hs : s.FaultInv) : s.decFault = true ↔ s.decCause ≠ 0 := by
  obtain ⟨hf, h⟩ | ⟨hf, h | h⟩ := decFault_decCause_cases hs <;> simp [hf, h]

/-- Settles O33: the fields by their places, and the two values that never appear by FaultInv and EncInv. -/
theorem statusWordFields : Obligations.StatusWordFields := by
  refine ⟨fun s => ⟨status_decFault s, status_decCause s, status_bit3 s, status_encPhase s,
    status_decPhase s, rfl⟩, rfl, fun s hs => ?_⟩
  obtain ⟨⟨hphase, -⟩, -, hfault, -⟩ := hs
  rw [status_decCause, status_encPhase]
  exact ⟨decCause_ne_three hfault, hphase⟩

/-- Settles O34: the outputs are the fault registers, and FaultInv says how these go together. -/
theorem statusFaultFieldsAgree : Obligations.StatusFaultFieldsAgree := by
  intro s hs
  obtain ⟨-, -, hfault, -⟩ := hs
  rw [faultLine_eq, status_decCause]
  exact ⟨fun hf => (hfault.1 hf).2, decFault_iff_decCause hfault⟩

/-! ### Output words (R47, R63) -/

theorem dataWord_toNat (v : Byte) : (dataWord v).toNat = v.toNat :=
  (BitVec.toNat_append 0#1 v).trans (by simp)

theorem dataWord_injective : Function.Injective dataWord := fun _ _ h => (BitVec.append_right_inj 0#1).mp h

theorem DecWordOk.toNat_le {w : OutWord} (hw : DecWordOk w) : w.toNat ≤ 0x100 := by
  obtain rfl | ⟨b, rfl⟩ := hw
  · exact Nat.le_refl 0x100
  · rw [dataWord_toNat]
    exact b.isLt.le

theorem EncWordOk.decWordOk {w : OutWord} (hw : EncWordOk w) : DecWordOk w :=
  hw.imp_right fun ⟨v, hv⟩ => ⟨alpha v, hv⟩

/-- `=` never appears on ENC_OUT: it is no entry of ALPHA (R29, R63). -/
theorem EncWordOk.ne_pad {w : OutWord} (hw : EncWordOk w) : w ≠ 0x03D := by
  obtain rfl | ⟨v, rfl⟩ := hw
  · decide
  · intro h
    exact alpha_ne_pad v (dataWord_injective h)

/-! Words that may stand in a history, put behind a legal one, leave it legal. -/

theorem emitEnc_outInv {s : State} (hs : s.OutInv) (v : Code) : (emitEnc (alpha v) s).OutInv :=
  ⟨List.forall_mem_append.mpr ⟨hs.1, List.forall_mem_singleton.mpr (.inr ⟨v, rfl⟩)⟩, hs.2⟩

theorem emitDecEom_outInv {s : State} (hs : s.OutInv) : (emitDecEom s).OutInv :=
  ⟨hs.1, List.forall_mem_append.mpr ⟨hs.2, List.forall_mem_singleton.mpr (.inl rfl)⟩⟩

theorem takeCode_outInv {s : State} (hs : s.OutInv) (v : Code) : (takeCode v s).OutInv := by
  obtain ⟨henc, hdec⟩ := hs
  obtain ⟨bs, -, hout⟩ := takeCode_decOut v s
  constructor
  · rw [takeCode_encOut]
    exact henc
  · rw [hout]
    exact List.forall_mem_append.mpr ⟨hdec, List.forall_mem_map.mpr fun b _ => .inr ⟨b, rfl⟩⟩

theorem execEncB_outInv {b : Byte} {s t : State} (hs : s.OutInv) (h : execEncB b s = .next t) : t.OutInv := by
  obtain ⟨-, rfl⟩ | ⟨-, rfl⟩ | ⟨-, rfl⟩ := execEncB_cases h
  · exact emitEnc_outInv hs _
  · exact emitEnc_outInv hs _
  · exact emitEnc_outInv (emitEnc_outInv hs _) _

theorem execEncEnd_outInv {s t : State} (hs : s.OutInv) (h : execEncEnd s = .next t) : t.OutInv := by
  obtain ⟨vs, -, -, rfl⟩ := execEncEnd_cases h
  obtain ⟨henc, hdec⟩ := hs
  have hvs : ∀ w ∈ vs.map (fun v => dataWord (alpha v)), EncWordOk w :=
    List.forall_mem_map.mpr fun v _ => .inr ⟨v, rfl⟩
  exact ⟨List.forall_mem_append.mpr
    ⟨List.forall_mem_append.mpr ⟨henc, hvs⟩, List.forall_mem_singleton.mpr (.inl rfl)⟩, hdec⟩

theorem execDecC_outInv {c : Byte} {s t : State} (hs : s.OutInv) (h : execDecC c s = .next t) : t.OutInv := by
  obtain ⟨-, rfl⟩ | ⟨-, -, rfl⟩ | ⟨-, -, rfl⟩ := execDecC_cases h
  · exact hs
  · exact takeCode_outInv hs _
  · exact hs

theorem execDecEnd_outInv {s t : State} (hs : s.OutInv) (h : execDecEnd s = .next t) : t.OutInv := by
  obtain ⟨-, rfl⟩ | ⟨-, -, rfl⟩ | ⟨-, -, rfl⟩ := execDecEnd_cases h
  · exact hs
  · exact emitDecEom_outInv hs
  · exact hs

theorem exec_outInv {i : Instr} {s t : State} (hs : s.OutInv) (h : exec i s = .next t) : t.OutInv := by
  cases i with
  | encB b => exact execEncB_outInv hs h
  | decC c => exact execDecC_outInv hs h
  | encEnd => exact execEncEnd_outInv hs h
  | decEnd => exact execDecEnd_outInv hs h

/-- A reset keeps both histories, or it is the first one and empties them (R102). -/
theorem resetEvent_outInv {s : State} (hs : s.OutInv) : (resetEvent s).OutInv := by
  cases hreset : s.wasReset with
  | true => simpa [State.OutInv, hreset] using hs
  | false => simp [State.OutInv, hreset]

/-- By what the step took: nothing, a command, or a reset. Taking an event off the port touches no history. -/
theorem step_outInv {s t : State} (hs : s.OutInv) (h : step s = .next t) : t.OutInv := by
  obtain ⟨-, rfl⟩ | ⟨w, es, -, -, hexec⟩ | ⟨es, -, rfl⟩ := step_cases h
  · exact hs
  · have hport : { s with port := es }.OutInv := hs
    exact exec_outInv hport hexec
  · have hport : { s with port := es }.OutInv := hs
    exact resetEvent_outInv hport

/-- Settles O52: the step keeps the histories legal, and the two bounds hold of every legal word. -/
theorem stepKeepsTheHistoriesLegal : Obligations.StepKeepsTheHistoriesLegal := by
  intro s t hs h
  obtain ⟨henc, hdec⟩ := step_outInv hs h
  exact ⟨⟨henc, hdec⟩, fun w hw => ⟨(henc w hw).decWordOk.toNat_le, (henc w hw).ne_pad⟩,
    fun w hw => (hdec w hw).toNat_le⟩

end Sys2Proof.Machine
end

section
/-! PROOFS. The encoder (spec/40_encode.md R54 to R65): the function encode, the two ENC commands arm by arm, and a whole
message through the unit, with any DEC commands mixed in. -/

namespace Sys2Proof.Machine

/-! ### The function encode (R54 to R58, R62 to R65) -/

namespace Codec

theorem pad3_length (x : List Byte) : (pad3 x).length = x.length + padCount x.length := by simp [pad3]

/-- Padding completes the last group of three (R54). -/
theorem three_dvd_add_padCount (n : Nat) : 3 ∣ n + padCount n := by
  simp only [padCount, Config.grpBytes]
  omega

/-- Whole groups get no padding (R54). -/
theorem padCount_of_dvd {n : Nat} (h : 3 ∣ n) : padCount n = 0 := by
  simp only [padCount, Config.grpBytes]
  omega

theorem pad3_pad3 (x : List Byte) : pad3 (pad3 x) = pad3 x := by
  have hlength : padCount (pad3 x).length = 0 := padCount_of_dvd (pad3_length x ▸ three_dvd_add_padCount x.length)
  rw [pad3, hlength, List.replicate_zero, List.append_nil]

theorem encode_pad3 (x : List Byte) : encode (pad3 x) = encode x := by
  rw [encode, pad3_pad3, ← encode]

theorem bits8_length (x : List Byte) : (bits8 x).length = 8 * x.length := by
  simp [bits8, List.length_flatMap, Nat.mul_comm]

/-- One character for each run of 6 bits (R56). -/
theorem encode_length (x : List Byte) : (encode x).length = 8 * (x.length + padCount x.length) / 6 := by
  simp [encode, mapAlpha, values6, runs, bits8_length, pad3_length]

theorem exists_alpha_of_mem_encode {x : List Byte} {c : Byte} (h : c ∈ encode x) : ∃ v : Code, c = alpha v := by
  obtain ⟨v, -, rfl⟩ := List.mem_map.mp h
  exact ⟨v, rfl⟩

end Codec

/-- Settles O41: step 4 of encode maps through ALPHA, which has no `=`. -/
theorem encodeStaysInTheAlphabet : Obligations.EncodeStaysInTheAlphabet := by
  intro x c hc
  obtain ⟨v, rfl⟩ := Codec.exists_alpha_of_mem_encode hc
  exact ⟨⟨v, rfl⟩, alpha_ne_pad v⟩

/-- Settles O43: padding twice is padding once, and the texts named pad to the same whole group. -/
theorem encodeOfPaddedInput : Obligations.EncodeOfPaddedInput := by
  have hpad : ∀ x : List Byte, Codec.encode x = Codec.encode (Codec.pad3 x) := fun x => (Codec.encode_pad3 x).symm
  have htwo : Codec.encode [0x3D, 0x3D] = Codec.encode [0x3D, 0x3D, 0x3D] := hpad [0x3D, 0x3D]
  have hone : Codec.encode [0x3D] = Codec.encode [0x3D, 0x3D, 0x3D] := hpad [0x3D]
  exact ⟨hpad, hpad [0x4D, 0x61], hone.trans htwo.symm, hone⟩

/-! ### ENC.B and ENC.END, arm by arm (R59, R60) -/

theorem execEncB_phase0 (b : Byte) {s : State} (h : s.encPhase = 0) : execEncB b s =
    .next (writeEnc 1 ((b.extractLsb' 0 2).setWidth 4) (emitEnc (alpha (sym0 b)) s)) := by
  simp [execEncB, h]

theorem execEncB_phase1 (b : Byte) {s : State} (h : s.encPhase = 1) : execEncB b s =
    .next (writeEnc 2 (b.extractLsb' 0 4) (emitEnc (alpha (sym1 (s.encRes.extractLsb' 0 2) b)) s)) := by
  simp [execEncB, h]

/-- The encoder at the end of a group that sent the characters `cs`: phase 0, residue 0. -/
def closeGroup (cs : List Byte) (s : State) : State :=
  { s with encOut := s.encOut ++ cs.map dataWord, encPhase := 0, encRes := 0 }

@[simp] theorem closeGroup_encPhase (cs : List Byte) (s : State) : (closeGroup cs s).encPhase = 0 := rfl

/-- One group after another is one that sent both texts. -/
@[simp] theorem closeGroup_closeGroup (cs ds : List Byte) (s : State) :
    closeGroup ds (closeGroup cs s) = closeGroup (cs ++ ds) s := by simp [closeGroup]

/-- The words of a closed message, written out. -/
theorem emitEncEom_closeGroup (cs : List Byte) (s : State) : emitEncEom (closeGroup cs s) =
    { s with encOut := s.encOut ++ (cs.map dataWord ++ [eomWord]), encPhase := 0, encRes := 0 } := by
  simp [closeGroup, emitEncEom]

theorem execEncB_phase2 (b : Byte) {s : State} (h : s.encPhase = 2) : execEncB b s =
    .next (closeGroup [alpha (sym2 s.encRes b), alpha (sym3 b)] s) := by
  simp [execEncB, h, closeGroup, writeEnc, emitEnc]

/-- Settles O13: the three arms of R59. -/
theorem encBByPhase : Obligations.EncBByPhase := by
  refine fun b s => ⟨fun h => ?phase0, fun h => ?phase1, fun h => ?phase2⟩
  case phase0 => exact execEncB_phase0 b h
  case phase1 => exact execEncB_phase1 b h
  case phase2 => exact execEncB_phase2 b h

/-! The arms of ENC.END send the symbols that pad bytes complete (R60): the constants in them are slices of PAD. -/

theorem sym1_pad (r : BitVec 2) : sym1 r Config.pad = r ++ 0b0011#4 := rfl

theorem sym2_pad (r : BitVec 4) : sym2 r Config.pad = r ++ 0b00#2 := rfl

theorem sym3_pad : sym3 Config.pad = 0b111101 := rfl

theorem pad_low4 : Config.pad.extractLsb' 0 4 = 0b1101#4 := rfl

theorem execEncEnd_phase0 {s : State} (h : s.encPhase = 0) : execEncEnd s = .next (emitEncEom (closeGroup [] s)) := by
  simp [execEncEnd, h, closeGroup, writeEnc, emitEncEom]

theorem execEncEnd_phase1 {s : State} (h : s.encPhase = 1) : execEncEnd s =
    .next (emitEncEom (closeGroup
      [alpha (sym1 (s.encRes.extractLsb' 0 2) Config.pad), alpha (sym2 (Config.pad.extractLsb' 0 4) Config.pad),
        alpha (sym3 Config.pad)] s)) := by
  simp [execEncEnd, h, closeGroup, writeEnc, emitEncEom, emitEnc, sym1_pad, sym2_pad, sym3_pad, pad_low4]

theorem execEncEnd_phase2 {s : State} (h : s.encPhase = 2) : execEncEnd s =
    .next (emitEncEom (closeGroup [alpha (sym2 s.encRes Config.pad), alpha (sym3 Config.pad)] s)) := by
  simp [execEncEnd, h, closeGroup, writeEnc, emitEncEom, emitEnc, sym2_pad, sym3_pad]

/-! The padding loop of R60 closes the group that is open. -/

theorem encPadLoop_phase0 (fuel : Nat) {s : State} (h : s.encPhase = 0) : encPadLoop fuel s = .next s := by
  cases fuel with
  | zero => rfl
  | succ fuel => simp [encPadLoop, h]

theorem encPadLoop_succ (fuel : Nat) {s : State} (h : s.encPhase ≠ 0) :
    encPadLoop (fuel + 1) s = andThen (execEncB Config.pad s) (encPadLoop fuel) := by
  rw [encPadLoop, if_neg h]

theorem encPadLoop_phase2 (fuel : Nat) {s : State} (h : s.encPhase = 2) : encPadLoop (fuel + 1) s =
    .next (closeGroup [alpha (sym2 s.encRes Config.pad), alpha (sym3 Config.pad)] s) := by
  rw [encPadLoop_succ fuel (by simp [h]), execEncB_phase2 _ h, andThen_next, encPadLoop_phase0 fuel rfl]

theorem encPadLoop_phase1 (fuel : Nat) {s : State} (h : s.encPhase = 1) : encPadLoop (fuel + 2) s =
    .next (closeGroup
      [alpha (sym1 (s.encRes.extractLsb' 0 2) Config.pad), alpha (sym2 (Config.pad.extractLsb' 0 4) Config.pad),
        alpha (sym3 Config.pad)] s) := by
  rw [encPadLoop_succ _ (by simp [h]), execEncB_phase1 _ h, andThen_next, encPadLoop_phase2 fuel rfl]
  simp [closeGroup, writeEnc, emitEnc]

/-- Where ENC_PHASE = 0 comes with residue 0, two turns of the padding loop close the group, and with the EOM word behind them
they are ENC.END (R60, R85). -/
theorem encPadLoop_closes {s : State} (hs : s.encPhase ≠ 3) (hres : s.encPhase = 0 → s.encRes = 0) :
    ∃ t, encPadLoop 2 s = .next t ∧ t.encPhase = 0 ∧ execEncEnd s = .next (emitEncEom t) := by
  rcases phase_cases s.encPhase with h | h | h | h
  · have hself : closeGroup [] s = s := by simp [closeGroup, ← h, ← hres h]
    exact ⟨s, encPadLoop_phase0 2 h, h, by rw [execEncEnd_phase0 h, hself]⟩
  · exact ⟨_, encPadLoop_phase1 0 h, rfl, execEncEnd_phase1 h⟩
  · exact ⟨_, encPadLoop_phase2 1 h, rfl, execEncEnd_phase2 h⟩
  · exact absurd h hs

/-- Settles O14: the arms with their constants evaluated, and the loop, which leaves what ENC.END sends EOM behind. -/
theorem encEndByPhase : Obligations.EncEndByPhase := by
  refine fun s => ⟨fun h => ?phase0, fun h => ?phase1, fun h => ?phase2, fun hs hres => ?loop⟩
  case phase0 =>
    rw [exec_encEnd, execEncEnd_phase0 h, emitEncEom_closeGroup]
    rfl
  case phase1 =>
    rw [exec_encEnd, execEncEnd_phase1 h, emitEncEom_closeGroup]
    rfl
  case phase2 =>
    rw [exec_encEnd, execEncEnd_phase2 h, emitEncEom_closeGroup]
    rfl
  case loop =>
    obtain ⟨t, hloop, hphase, hend⟩ := encPadLoop_closes hs hres
    exact ⟨by rw [exec_encEnd, hend, encEndByLoop, hloop, andThen_next], t, hloop, hphase⟩

/-- Settles O42. -/
theorem emptyMessages : Obligations.EmptyMessages := by
  refine ⟨Codec.encode_nil, rfl, fun s h => ?enc, fun s h hf => ?dec⟩
  case enc => exact ⟨_, execEncEnd_phase0 h, by simp [emitEncEom_closeGroup, eomWord_eq]⟩
  case dec => exact ⟨_, execDecEnd_phase0 hf h, rfl⟩

/-! ### A message through the unit (R61, R62) -/

/-- Three bytes from the start of a group send its four symbols. -/
theorem runCommands_group (a b c : Byte) (is : List Instr) {s : State} (h : s.encPhase = 0) :
    runCommands (.encB a :: .encB b :: .encB c :: is) s
      = runCommands is (closeGroup ((groupSyms a b c).map alpha) s) := by
  simp only [runCommands, exec_encB]
  rw [execEncB_phase0 a h, andThen_next, execEncB_phase1 b rfl, andThen_next, execEncB_phase2 c rfl, andThen_next]
  simp [closeGroup, writeEnc, emitEnc, encRes_low2, groupSyms]

/-- From the start of a group, a message sends encode of it and EOM: whole groups one by one, the last one filled up by
ENC.END. -/
theorem runCommands_message (x : List Byte) {s : State} (h : s.encPhase = 0) :
    runCommands (x.map .encB ++ [.encEnd]) s = .next (emitEncEom (closeGroup (Codec.encode x) s)) := by
  induction x using Codec.bytes_induction generalizing s with
  | nil => simp [runCommands, execEncEnd_phase0 h, Codec.encode_nil]
  | one a =>
    simp only [List.map_cons, List.map_nil, List.cons_append, List.nil_append, runCommands, exec_encB, exec_encEnd]
    rw [execEncB_phase0 a h, andThen_next, execEncEnd_phase1 rfl, andThen_next, Codec.encode_one]
    simp [closeGroup, writeEnc, emitEnc, encRes_low2, groupSyms]
  | two a b =>
    simp only [List.map_cons, List.map_nil, List.cons_append, List.nil_append, runCommands, exec_encB, exec_encEnd]
    rw [execEncB_phase0 a h, andThen_next, execEncB_phase1 b rfl, andThen_next, execEncEnd_phase2 rfl, andThen_next,
      Codec.encode_two]
    simp [closeGroup, writeEnc, emitEnc, encRes_low2, groupSyms]
  | group a b c x ih =>
    simp only [List.map_cons, List.cons_append]
    rw [runCommands_group a b c _ h, ih (closeGroup_encPhase _ s), closeGroup_closeGroup, ← Codec.encode_cons3]

/-- Settles O40: padding makes whole groups, four characters each, and the unit's data words are the characters of
encode. -/
theorem encodeLength : Obligations.EncodeLength := by
  intro x
  obtain ⟨groups, hgroups⟩ := Codec.three_dvd_add_padCount x.length
  have hlength : (Codec.encode x).length = groups * 4 := by
    rw [Codec.encode_length, hgroups]
    omega
  have hfour : (x.length + Codec.padCount x.length) / 3 * 4 = groups * 4 := by omega
  refine ⟨by omega, by omega, by omega, fun s h => ⟨_, Codec.encode x, runCommands_message x h, ?_, by omega⟩⟩
  simp [emitEncEom_closeGroup]

/-! ### The ENC commands of a mixed sequence (R107) -/

/-- ENC commands run on the ENC part of the state, whatever stands beside it. -/
theorem runCommands_withEncOf {is : List Instr} {s t : State} (his : ∀ i ∈ is, i.isEnc = true)
    (h : runCommands is s = .next t) (u : State) : runCommands is (u.withEncOf s) = .next (u.withEncOf t) := by
  induction is generalizing s with
  | nil =>
    cases h
    rfl
  | cons i is ih =>
    obtain ⟨hi, his⟩ := List.forall_mem_cons.mp his
    obtain ⟨v, hexec, hrun⟩ := andThen_eq_next.mp h
    rw [runCommands, exec_withEncOf hi hexec, andThen_next]
    exact ih his hrun

/-- DEC commands mixed into ENC commands that complete let them complete, and leave the ENC part of the end. -/
theorem runCommands_of_filter_isEnc {is : List Instr} {s t : State}
    (h : runCommands (is.filter Instr.isEnc) s = .next t) : ∃ u : State, runCommands is s = .next (u.withEncOf t) := by
  induction is generalizing s t with
  | nil =>
    cases h
    exact ⟨s, rfl⟩
  | cons i is ih =>
    cases hi : i.isEnc with
    | true =>
      rw [List.filter_cons_of_pos hi] at h
      obtain ⟨v, hexec, hrun⟩ := andThen_eq_next.mp h
      obtain ⟨u, hu⟩ := ih hrun
      exact ⟨u, by rw [runCommands, hexec, andThen_next, hu]⟩
    | false =>
      rw [List.filter_cons_of_neg (by simp [hi])] at h
      have hdec := isEnc_eq_false.mp hi
      obtain ⟨v, hexec⟩ := exec_dec_completes hdec s
      have henc : v.withEncOf s = v := by
        rw [exec_dec_frame hdec hexec]
        rfl
      have hrun := runCommands_withEncOf (fun _ hj => (List.mem_filter.mp hj).2) h v
      rw [henc] at hrun
      obtain ⟨u, hu⟩ := ih hrun
      exact ⟨u.withEncOf v, by rw [runCommands, hexec, andThen_next, hu]; rfl⟩

/-- Settles O46: the ENC commands alone send the message, and the DEC commands mixed in leave the ENC part. The premise on
the residue is not used: phase 0 reads no residue. -/
theorem encoderComputesEncode : Obligations.EncoderComputesEncode := by
  intro x is s hphase _ hfilter
  obtain ⟨u, hu⟩ := runCommands_of_filter_isEnc (hfilter ▸ runCommands_message x hphase)
  exact ⟨_, hu, rfl, rfl, rfl⟩

end Sys2Proof.Machine
end

section
/-! PROOFS. The decoder (spec/41_decode.md R66 to R78): the function decode and what encode makes of its value, the two DEC
commands case by case, the decoder under a fault, and the two ways a text through the unit ends in one. -/

namespace Sys2Proof.Machine

/-! ### The function decode (R66 to R70) -/

namespace Codec

/-- The top two bits of an 8-bit expansion discarded (R67). -/
theorem toBits_drop_two (v : Nat) : (toBits v 8).drop 2 = toBits v 6 := by
  rw [toBits_succ, toBits_succ, List.drop_succ_cons, List.drop_succ_cons, List.drop_zero]

theorem bits6_eq_codeBits (V : List Code) : bits6 V = codeBits V := by
  simp only [bits6, codeBits, toBits_drop_two]

theorem codeBits_length (V : List Code) : (codeBits V).length = 6 * V.length := by
  simp [codeBits, List.length_flatMap, Nat.mul_comm]

/-- One byte for each whole run of 8 bits (R68). -/
theorem completedBytes_length (t : List Byte) :
    (completedBytes t).length = t.length / 4 * 3 + (t.length % 4 - 1) := by
  have hruns : (completedBytes t).length = 6 * t.length / 8 := by
    simp [completedBytes, values8, runs, codes, bits6_eq_codeBits, codeBits_length]
  omega

/-- Behind whole groups, a text completes its own bytes. -/
theorem completedBytes_append {t : List Byte} (ht : 4 ∣ t.length) (u : List Byte) :
    completedBytes (t ++ u) = completedBytes t ++ completedBytes u := by
  induction t using text_induction with
  | nil => rfl
  | one a => simp at ht
  | two a b => simp at ht
  | three a b c => simp at ht
  | group a b c d t ih =>
    have ht' : 4 ∣ t.length := by simpa [Nat.add_assoc] using ht
    simp only [List.cons_append, completedBytes_cons4, ih ht', List.append_assoc]

theorem inDomain_iff (t : List Byte) : inDomain t = true ↔ (∀ c ∈ t, revValid c = true) ∧ 4 ∣ t.length := by
  simp [inDomain, Config.grpSyms, Nat.dvd_iff_mod_eq_zero]

theorem decode_of_inDomain {t : List Byte} (ht : inDomain t = true) : decode t = some (completedBytes t) := if_pos ht

/-- The whole groups of a text of alphabet characters decode to the bytes that the text completes first (R74). -/
theorem decode_wholeGroups {t : List Byte} (ht : ∀ c ∈ t, revValid c = true) :
    decode (t.take (4 * (t.length / 4))) = some ((completedBytes t).take (t.length / 4 * 3)) := by
  have hgroups : (t.take (4 * (t.length / 4))).length = 4 * (t.length / 4) := by
    rw [List.length_take]
    omega
  have hdvd : 4 ∣ (t.take (4 * (t.length / 4))).length := ⟨_, hgroups⟩
  have hbytes : (completedBytes (t.take (4 * (t.length / 4)))).length = t.length / 4 * 3 := by
    rw [completedBytes_length, hgroups]
    omega
  have hsplit := completedBytes_append hdvd (t.drop (4 * (t.length / 4)))
  rw [List.take_append_drop] at hsplit
  rw [decode_of_inDomain ((inDomain_iff _).mpr ⟨fun c hc => ht c (List.mem_of_mem_take hc), hdvd⟩), hsplit,
    List.take_left' hbytes]

/-! ### decode and encode (R75 to R78) -/

/-- The four symbols of three bytes complete the three bytes (R35). -/
theorem completedBytes_groupSyms (b0 b1 b2 : Byte) : completedBytes ((groupSyms b0 b1 b2).map alpha) = [b0, b1, b2] := by
  have hcodes : codes ((groupSyms b0 b1 b2).map alpha) = groupSyms b0 b1 b2 := by
    simp [codes, Function.comp_def]
  rw [completedBytes, hcodes, bits6_eq_codeBits, codeBits_groupSyms, values8_bits8]

theorem encode_groupBytes (s0 s1 s2 s3 : Code) (x : List Byte) :
    encode (groupBytes s0 s1 s2 s3 ++ x) = [s0, s1, s2, s3].map alpha ++ encode x := by
  obtain ⟨-, -, -, hcodes⟩ := groupIdentities
  obtain ⟨b0, b1, b2, hbytes, hsyms⟩ := hcodes s0 s1 s2 s3
  rw [hbytes, ← hsyms]
  exact encode_cons3 b0 b1 b2 x

/-- Whole groups of bytes come back from their characters. -/
theorem completedBytes_encode {x : List Byte} (hx : 3 ∣ x.length) : completedBytes (encode x) = x := by
  induction x using bytes_induction with
  | nil => rfl
  | one a => simp at hx
  | two a b => simp at hx
  | group a b c x ih =>
    have hx' : 3 ∣ x.length := by simpa [Nat.add_assoc] using hx
    rw [encode_cons3, completedBytes_append ⟨1, rfl⟩, completedBytes_groupSyms, ih hx']
    rfl

/-- Whole groups of alphabet characters come back from their bytes. -/
theorem encode_completedBytes {t : List Byte} (ht : ∀ c ∈ t, revValid c = true) (hlength : 4 ∣ t.length) :
    encode (completedBytes t) = t := by
  induction t using text_induction with
  | nil => rfl
  | one a => simp at hlength
  | two a b => simp at hlength
  | three a b c => simp at hlength
  | group a b c d t ih =>
    simp only [List.forall_mem_cons] at ht
    obtain ⟨ha, hb, hc, hd, ht⟩ := ht
    rw [completedBytes_cons4, encode_groupBytes, ih ht (by simpa [Nat.add_assoc] using hlength)]
    simp [alpha_revCode, ha, hb, hc, hd]

theorem encode_inDomain (x : List Byte) : inDomain (encode x) = true := by
  refine (inDomain_iff _).mpr ⟨fun c hc => ?_, ?_⟩
  · obtain ⟨v, rfl⟩ := exists_alpha_of_mem_encode hc
    exact revValid_alpha v
  · obtain ⟨groups, hgroups⟩ := three_dvd_add_padCount x.length
    rw [encode_length, hgroups]
    omega

/-- Decoding what encode made of `x` gives `x` with its padding: encode sees no difference between the two (R75). -/
theorem decode_encode (x : List Byte) : decode (encode x) = some (pad3 x) := by
  have hpad : 3 ∣ (pad3 x).length := pad3_length x ▸ three_dvd_add_padCount x.length
  rw [decode_of_inDomain (encode_inDomain x), ← encode_pad3, completedBytes_encode hpad]

theorem pad3_eq_self_iff (x : List Byte) : pad3 x = x ↔ x.length % 3 = 0 := by
  simp only [pad3, List.append_right_eq_self, List.replicate_eq_nil_iff, padCount, Config.grpBytes]
  omega

end Codec

/-- Settles O39. -/
theorem discardLeavesSixBits : Obligations.DiscardLeavesSixBits := by
  intro V
  rw [Codec.bits6_eq_codeBits]
  exact ⟨rfl, Codec.codeBits_length V⟩

/-- Settles O45, on whole groups of alphabet characters. -/
theorem encodeInvertsDecode : Obligations.EncodeInvertsDecode := by
  intro t y h
  obtain ⟨htext, hlength, rfl⟩ := decode_eq_some h
  refine ⟨?_, Codec.encode_completedBytes htext (Nat.dvd_of_mod_eq_zero hlength)⟩
  rw [Codec.completedBytes_length]
  omega

/-! ### DEC.C and DEC.END, case by case (R71, R72) -/

theorem takeCode_phase0 (v : Code) {s : State} (h : s.decPhase = 0) : takeCode v s = writeDec 1 v s := by
  simp [takeCode, h]

theorem takeCode_phase1 (v : Code) {s : State} (h : s.decPhase = 1) : takeCode v s =
    writeDec 2 ((v.extractLsb' 0 4).setWidth 6) (emitDec (byte0 s.decRes v) s) := by
  simp [takeCode, h]

theorem takeCode_phase2 (v : Code) {s : State} (h : s.decPhase = 2) : takeCode v s =
    writeDec 3 ((v.extractLsb' 0 2).setWidth 6) (emitDec (byte1 (s.decRes.extractLsb' 0 4) v) s) := by
  simp [takeCode, h]

theorem takeCode_phase3 (v : Code) {s : State} (h : s.decPhase = 3) : takeCode v s =
    writeDec 0 0 (emitDec (byte2 (s.decRes.extractLsb' 0 2) v) s) := by
  simp [takeCode, h]

theorem execDecC_faulted (c : Byte) {s : State} (hf : s.decFault = true) : execDecC c s = .next s := by
  simp [execDecC, hf]

theorem execDecC_invalid {c : Byte} {s : State} (hf : s.decFault = false) (hc : revValid c = false) :
    execDecC c s = .next (raiseFault causeInvalidCharacter c s.decPos s) := by
  simp [execDecC, hf, hc]

theorem execDecEnd_faulted {s : State} (hf : s.decFault = true) : execDecEnd s = .next s := by
  simp [execDecEnd, hf]

theorem execDecEnd_truncated {s : State} (hf : s.decFault = false) (hp : s.decPhase ≠ 0) :
    execDecEnd s = .next (raiseFault causeTruncatedInput 0x00 s.decPos s) := by
  rw [execDecEnd, if_neg (by simp [hf]), if_neg hp, raiseTruncatedInput_eq]

/-- An entry of REV with its valid bit set has a code, and that is its low bits (R31). -/
theorem valid_code_of_rev {c : Byte} {v : Code} (h : rev c = 1#1 ++ v) : revValid c = true ∧ revCode c = v := by
  constructor
  · rw [revValid, h, BitVec.getLsbD_append]
    rfl
  · rw [revCode, h]
    exact BitVec.extractLsb'_append_eq_right

/-- Settles O19: the fault, the test of `valid`, and the four arms of taking the code. -/
theorem decCByCases : Obligations.DecCByCases := by
  refine fun c s => ⟨fun hf => execDecC_faulted c hf, fun hf hc => execDecC_invalid hf hc, fun v hf hrev => ?valid⟩
  case valid =>
    obtain ⟨hc, rfl⟩ := valid_code_of_rev hrev
    rw [exec_decC, execDecC_valid hf hc]
    refine ⟨fun h => ?phase0, fun h => ?phase1, fun h => ?phase2, fun h => ?phase3⟩
    case phase0 => rw [takeCode_phase0 _ h]; rfl
    case phase1 => rw [takeCode_phase1 _ h]; rfl
    case phase2 => rw [takeCode_phase2 _ h]; rfl
    case phase3 => rw [takeCode_phase3 _ h]; rfl

/-- Settles O20. -/
theorem decEndByCases : Obligations.DecEndByCases := fun _ =>
  ⟨execDecEnd_faulted, execDecEnd_truncated, execDecEnd_phase0⟩

/-! ### The decoder under a fault (R73) -/

theorem exec_dec_faulted {i : Instr} {s : State} (hi : i.isDec = true) (hf : s.decFault = true) :
    exec i s = .next s := by
  obtain ⟨c, rfl⟩ | rfl := isDec_cases hi
  · exact execDecC_faulted c hf
  · exact execDecEnd_faulted hf

/-- DEC commands behind a fault change nothing. -/
theorem runCommands_dec_faulted {is : List Instr} {s : State} (his : ∀ i ∈ is, i.isDec = true)
    (hf : s.decFault = true) : runCommands is s = .next s := by
  induction is with
  | nil => rfl
  | cons i is ih =>
    obtain ⟨hi, his⟩ := List.forall_mem_cons.mp his
    rw [runCommands, exec_dec_faulted hi hf, andThen_next, ih his]

/-- DEC_FAULT is outside the ENC part, so an ENC command neither reads nor writes it (R96). -/
theorem exec_enc_withFault {i : Instr} {s t : State} (hi : i.isEnc = true) (h : exec i s = .next t) (f : Bool) :
    exec i { s with decFault := f } = .next { t with decFault := f } := by
  have hf := exec_withEncOf hi h { s with decFault := f }
  rw [exec_enc_frame hi h]
  exact hf

/-- Settles O22, clause by clause. -/
theorem faultedDecoderDoesNothing : Obligations.FaultedDecoderDoesNothing := by
  refine ⟨fun i s hi hf => exec_dec_faulted hi hf, fun w es s hport hreset hi hf => ?step,
    fun i s t f hi h => exec_enc_withFault hi h f, fun es s hf hgood => ?good, fun es s hport => ?reset⟩
  case step =>
    rw [stepRunsDecodedCommand s w es hport hreset]
    exact exec_dec_faulted hi hf
  case good =>
    obtain ⟨hnofault, -, -⟩ := hgood
    simp [hf] at hnofault
  case reset => exact ⟨resetEvent { s with port := es }, step_of_port_cons hport, rfl⟩

/-! ### A text through the unit (R74, R75) -/

theorem isDec_of_mem_text {text : List Byte} {i : Instr} (hi : i ∈ text.map .decC ++ [.decEnd]) : i.isDec = true := by
  rcases List.mem_append.mp hi with hi | hi
  · obtain ⟨c, -, rfl⟩ := List.mem_map.mp hi
    rfl
  · rw [List.mem_singleton.mp hi]
    rfl

theorem runCommands_singleton (i : Instr) (s : State) : runCommands [i] s = exec i s := by
  rw [runCommands]
  cases exec i s <;> rfl

/-- Alphabet characters bring the decoder to its END without a fault. -/
theorem runCommands_text {text : List Byte} {s : State} (htext : ∀ c ∈ text, revValid c = true)
    (hf : s.decFault = false) :
    runCommands (text.map .decC ++ [.decEnd]) s = execDecEnd (takeText text s) := by
  rw [runCommands_append, runCommands_decC_eq_takeText htext hf, andThen_next, runCommands_singleton,
    exec_decEnd]

/-- Alphabet characters from the start of a message raise no fault, and phase and position count them (R16, R18). -/
theorem takeText_counts {text : List Byte} {s : State} (htext : ∀ c ∈ text, revValid c = true)
    (hf : s.decFault = false) (hphase : s.decPhase = 0) (hpos : s.decPos = 0) :
    (takeText text s).decFault = false ∧ (takeText text s).decPhase.toNat = text.length % 4
      ∧ (takeText text s).decPos = text.length % 2 ^ s.posWidth := by
  obtain ⟨t, hrun, hcounts⟩ := decoderCountsCharacters text s htext hf hphase hpos
  rw [runCommands_decC_eq_takeText htext hf] at hrun
  obtain rfl : takeText text s = t := by injection hrun
  exact hcounts

/-- Settles O44: a text of the domain ends at phase 0, where DEC.END sends EOM. The premise on the residue is not used:
phase 0 reads no residue. -/
theorem roundTripAddsThePadding : Obligations.RoundTripAddsThePadding := by
  refine fun x => ⟨Codec.encode_inDomain x, Codec.decode_encode x, ?self, fun s hphase _ hpos hf => ?unit⟩
  case self => rw [Codec.decode_encode, Option.some_inj, Codec.pad3_eq_self_iff]
  case unit =>
    obtain ⟨htext, hlength, hbytes⟩ := decode_eq_some (Codec.decode_encode x)
    obtain ⟨hfault, hcount, -⟩ := takeText_counts htext hf hphase hpos
    have hend : (takeText (Codec.encode x) s).decPhase = 0 := BitVec.eq_of_toNat_eq (hcount.trans hlength)
    refine ⟨_, (runCommands_text htext hf).trans (execDecEnd_phase0 hfault hend), hfault, ?_⟩
    rw [hbytes, ← takeText_decOut _ hphase]
    rfl

/-- The first character outside the alphabet raises the fault, and the DEC commands behind it do nothing (R73). -/
theorem runCommands_invalid_text {pre post : List Byte} {c : Byte} {s : State} (hpre : ∀ d ∈ pre, revValid d = true)
    (hc : revValid c = false) (hf : s.decFault = false) (hfault : (takeText pre s).decFault = false) :
    runCommands ((pre ++ c :: post).map .decC ++ [.decEnd]) s =
      .next (raiseFault causeInvalidCharacter c (takeText pre s).decPos (takeText pre s)) := by
  rw [List.map_append, List.append_assoc, runCommands_append, runCommands_decC_eq_takeText hpre hf, andThen_next,
    List.map_cons, List.cons_append, runCommands, exec_decC, execDecC_invalid hfault hc, andThen_next]
  exact runCommands_dec_faulted (fun _ hi => isDec_of_mem_text hi) rfl

/-- Settles O48: the characters before the first one outside the alphabet are taken, which sends the bytes they complete,
and the fault ends the text; the ENC commands mixed in leave the DEC part. As in O44, the premise on the residue is not used. -/
theorem decoderReportsInvalidCharacter : Obligations.DecoderReportsInvalidCharacter := by
  intro text n c is s henc hphase _ hpos hf hwidth hfilter hn hc hpre
  obtain ⟨hlt, hget⟩ := List.getElem?_eq_some_iff.mp hn
  have hlength : (text.take n).length = n := by simp [hlt.le]
  have hsplit : text.take n ++ c :: text.drop (n + 1) = text := by
    rw [← hget, ← List.drop_eq_getElem_cons, List.take_append_drop]
  obtain ⟨hfault, -, hcount⟩ := takeText_counts hpre hf hphase hpos
  have hdec := runCommands_invalid_text (post := text.drop (n + 1)) hpre hc hf hfault
  rw [hsplit, ← hfilter] at hdec
  obtain ⟨u, hu⟩ := runCommands_of_filter_isDec henc hdec
  have herr : (takeText (text.take n) s).decPos = n := by
    rw [hcount, hlength, Nat.mod_eq_of_lt (hlt.trans hwidth)]
  have hbytes := Codec.completedBytes_length (text.take n)
  have hgroups := Codec.decode_wholeGroups hpre
  rw [hlength] at hbytes hgroups
  rw [List.take_take, Nat.min_eq_left (Nat.mul_div_le n 4)] at hgroups
  exact ⟨_, _, hu, rfl, rfl, rfl, herr, takeText_decOut _ hphase, rfl, hbytes, hgroups⟩

/-- Settles O49: all characters are taken, which sends the bytes they complete, and DEC.END comes in the middle of a group.
As in O44, the premise on the residue is not used. -/
theorem decoderReportsTruncatedInput : Obligations.DecoderReportsTruncatedInput := by
  intro text is s henc hphase _ hpos hf hwidth hfilter htext hlength
  obtain ⟨hfault, hphaseEnd, hcount⟩ := takeText_counts htext hf hphase hpos
  have hmid : (takeText text s).decPhase ≠ 0 := fun h => hlength (by rw [← hphaseEnd, h]; rfl)
  have hdec := (runCommands_text htext hf).trans (execDecEnd_truncated hfault hmid)
  rw [← hfilter] at hdec
  obtain ⟨u, hu⟩ := runCommands_of_filter_isDec henc hdec
  exact ⟨_, _, hu, rfl, rfl, rfl, hcount.trans (Nat.mod_eq_of_lt hwidth), takeText_decOut _ hphase, rfl,
    Codec.completedBytes_length text, Codec.decode_wholeGroups htext⟩

end Sys2Proof.Machine
end

section
/-! PROOFS. The bit helpers (spec/42_bit_helpers.md R81 to R87): the bits of a value and the value of bits, the pad
count and the phase that it depends on, and what the position counter reaches. -/

namespace Sys2Proof.Machine

/-! ### Bits and values (R81 to R84) -/

namespace Codec

theorem toBits_getElem? (v : Nat) {n k : Nat} (hk : k < n) :
    (toBits v n)[k]? = some (v / 2 ^ (n - 1 - k) % 2 == 1) := by
  simp [toBits, hk]

theorem val_lt (r : List Bool) : val r < 2 ^ r.length := by
  induction r with
  | nil => decide
  | cons b r ih =>
    have hb : b.toNat * 2 ^ r.length ≤ 1 * 2 ^ r.length := Nat.mul_le_mul_right _ b.toNat_le
    rw [val, List.length_cons, Nat.pow_succ]
    omega

/-- The recursion of `val` adds the bits with their weights, the top bit first. -/
theorem val_eq_sum (r : List Bool) :
    val r = ∑ k : Fin r.length, (r[k]).toNat * 2 ^ (r.length - 1 - k.val) := by
  induction r with
  | nil => rfl
  | cons b r ih =>
    have weight (k : Fin r.length) : r.length - (k.val + 1) = r.length - 1 - k.val := by omega
    rw [val, ih]
    simp [Fin.sum_univ_succ, weight]

theorem val_append (r q : List Bool) : val (r ++ q) = val r * 2 ^ q.length + val q := by
  induction r with
  | nil => simp [val]
  | cons b r ih =>
    rw [List.cons_append, val, val, ih, List.length_append, Nat.pow_add]
    ring

/-- Whatever stands in front of them, the low bits of a value are the run whose value was put there. -/
theorem toBits_mul_add_val (a : Nat) (r : List Bool) : toBits (a * 2 ^ r.length + val r) r.length = r := by
  induction r generalizing a with
  | nil => rfl
  | cons b r ih =>
    have hfront : a * 2 ^ (r.length + 1) + val (b :: r) = (2 * a + b.toNat) * 2 ^ r.length + val r := by
      rw [val]
      ring
    have hquot : ((2 * a + b.toNat) * 2 ^ r.length + val r) / 2 ^ r.length = 2 * a + b.toNat := by
      rw [Nat.mul_comm, Nat.mul_add_div (Nat.two_pow_pos _), Nat.div_eq_of_lt (val_lt r), Nat.add_zero]
    rw [List.length_cons, hfront, toBits_succ, hquot, ih]
    cases b <;> simp

theorem toBits_val (r : List Bool) : toBits (val r) r.length = r := by
  simpa using toBits_mul_add_val 0 r

/-- The two bits that the 8-bit expansion of a code has above its 6 are 0 (R67). -/
theorem toBits_eight {v : Nat} (hv : v < 64) : toBits v 8 = [false, false] ++ toBits v 6 := by
  rw [toBits_succ, toBits_succ, Nat.div_eq_of_lt (by omega), Nat.div_eq_of_lt (by omega)]
  rfl

end Codec

/-- Settles O35: `testBit` is the same quotient modulo 2. -/
theorem toBitsFormula : Obligations.ToBitsFormula := by
  refine fun value width => ⟨Codec.toBits_length value width, fun k hk => ⟨Codec.toBits_getElem? value hk, ?_⟩⟩
  rw [Codec.toBits_getElem? value hk, Nat.testBit_eq_decide_div_mod_eq]
  rfl

/-- Settles O36. -/
theorem valIsTheWeightedSum : Obligations.ValIsTheWeightedSum := fun r => ⟨Codec.val_eq_sum r, Codec.val_lt r⟩

/-- Settles O37, clause by clause. -/
theorem toBitsAndValInverse : Obligations.ToBitsAndValInverse :=
  ⟨fun n v hv => (Codec.val_toBits_mod v n).trans (Nat.mod_eq_of_lt hv), Codec.toBits_val,
    fun _ hv => Codec.toBits_eight hv, Codec.val_append⟩

/-! ### The pad count and ENC_PHASE (R85) -/

namespace Codec

theorem padCount_eq (n : Nat) : padCount n = (3 - n % 3) % 3 := rfl

/-- No multiple of 3 lies between a length and its padded length. -/
theorem add_padCount_le {n m : Nat} (hnm : n ≤ m) (hm : m % 3 = 0) : n + padCount n ≤ m := by
  rw [padCount_eq]
  omega

end Codec

/-- ENC.B counts the bytes of a group (R14). -/
theorem execEncB_encPhase {b : Byte} {s t : State} (h : execEncB b s = .next t) :
    t.encPhase.toNat = (s.encPhase.toNat + 1) % 3 := by
  obtain ⟨hp, rfl⟩ | ⟨hp, rfl⟩ | ⟨hp, rfl⟩ := execEncB_cases h
  all_goals rw [hp]; rfl

theorem legalPhase_toNat_lt : ∀ p : BitVec 2, p ≠ 3 → p.toNat < 3 := by decide

/-- From a legal phase the bytes of a message move ENC_PHASE on by their number, modulo 3. -/
theorem runCommands_encB_counts (x : List Byte) {s : State} (hs : s.encPhase ≠ 3) :
    ∃ t, runCommands (x.map .encB) s = .next t ∧ t.encPhase.toNat = (s.encPhase.toNat + x.length) % 3 := by
  induction x generalizing s with
  | nil => exact ⟨s, rfl, (Nat.mod_eq_of_lt (legalPhase_toNat_lt _ hs)).symm⟩
  | cons b x ih =>
    obtain ⟨u, hexec, hu⟩ := encoderAlwaysCompletes (.encB b) s rfl hs
    obtain ⟨t, hrun, hcount⟩ := ih hu
    refine ⟨t, by rw [List.map_cons, runCommands, hexec, andThen_next, hrun], ?_⟩
    rw [hcount, execEncB_encPhase hexec, Nat.mod_add_mod, List.length_cons, Nat.add_assoc, Nat.add_comm 1]

/-- Settles O38. The three values are arithmetic; from phase 0, ENC_PHASE is the length modulo 3, which is all that the
pad count reads of it. -/
theorem padCountCompletesTheGroup : Obligations.PadCountCompletesTheGroup := by
  refine ⟨fun n => ⟨?zero, ?one, ?two, ?whole, fun m => Codec.add_padCount_le⟩, fun x s hs => ?unit⟩
  case zero => exact fun h => Codec.padCount_of_dvd (Nat.dvd_of_mod_eq_zero h)
  case one => exact fun h => by rw [Codec.padCount_eq, h]
  case two => exact fun h => by rw [Codec.padCount_eq, h]
  case whole => exact Nat.mod_eq_zero_of_dvd (Codec.three_dvd_add_padCount n)
  case unit =>
    obtain ⟨t, hrun, hcount⟩ := runCommands_encB_counts x (s := s) (by simp [hs])
    have hphase : t.encPhase.toNat = x.length % 3 := by simpa [hs] using hcount
    exact ⟨t, hrun, hphase, by rw [hphase, Codec.padCount_eq]⟩

/-! ### What the position counter reaches (R87, R108) -/

/-- `s` with other values in the two position registers and another POS_WIDTH. -/
def State.withPosition (s : State) (decPos errPos posWidth : Nat) : State :=
  { s with decPos := decPos, errPos := errPos, posWidth := posWidth }

@[simp] theorem withPosition_decPhase (s : State) (pos err width : Nat) :
    (s.withPosition pos err width).decPhase = s.decPhase := rfl
@[simp] theorem withPosition_decRes (s : State) (pos err width : Nat) :
    (s.withPosition pos err width).decRes = s.decRes := rfl
@[simp] theorem emitDec_withPosition (v : Byte) (s : State) (pos err width : Nat) :
    emitDec v (s.withPosition pos err width) = (emitDec v s).withPosition pos err width := rfl
@[simp] theorem writeDec_withPosition (p : BitVec 2) (r : BitVec 6) (s : State) (pos err width : Nat) :
    writeDec p r (s.withPosition pos err width) = (writeDec p r s).withPosition pos err width := rfl

/-- Taking a code neither reads nor writes a position. -/
theorem takeCode_withPosition (v : Code) (s : State) (pos err width : Nat) :
    takeCode v (s.withPosition pos err width) = (takeCode v s).withPosition pos err width := by
  rcases phase_cases s.decPhase with h | h | h | h <;> simp [takeCode, h]

/-- The positions are outside the ENC part of the state. -/
theorem exec_enc_withPosition {i : Instr} {s t : State} (hi : i.isEnc = true) (h : exec i s = .next t)
    (pos err width : Nat) : exec i (s.withPosition pos err width) = .next (t.withPosition pos err width) := by
  have hpart := exec_withEncOf hi h (s.withPosition pos err width)
  rw [exec_enc_frame hi h]
  exact hpart

/-- From another position DEC.C goes through the same case, and answers the same but for the positions. -/
theorem execDecC_withPosition {c : Byte} {s t : State} (h : execDecC c s = .next t) (pos err width : Nat) :
    ∃ pos' err', execDecC c (s.withPosition pos err width) = .next (t.withPosition pos' err' width) := by
  obtain ⟨hf, rfl⟩ | ⟨hf, hc, rfl⟩ | ⟨hf, hc, rfl⟩ := execDecC_cases h
  · exact ⟨pos, err, execDecC_faulted c hf⟩
  · refine ⟨(pos + 1) % 2 ^ width, err, ?_⟩
    rw [execDecC_valid (s := s.withPosition pos err width) hf hc, takeCode_withPosition]
    rfl
  · exact ⟨pos, pos, execDecC_invalid hf hc⟩

/-- From another position DEC.END goes through the same case, and answers the same but for the positions. -/
theorem execDecEnd_withPosition {s t : State} (h : execDecEnd s = .next t) (pos err width : Nat) :
    ∃ pos' err', execDecEnd (s.withPosition pos err width) = .next (t.withPosition pos' err' width) := by
  obtain ⟨hf, rfl⟩ | ⟨hf, hp, rfl⟩ | ⟨hf, hp, rfl⟩ := execDecEnd_cases h
  · exact ⟨pos, err, execDecEnd_faulted hf⟩
  · exact ⟨0, err, execDecEnd_phase0 hf hp⟩
  · exact ⟨pos, pos, execDecEnd_truncated hf hp⟩

/-- From another position a command completes too, and answers the same but for the positions. -/
theorem exec_withPosition {i : Instr} {s t : State} (h : exec i s = .next t) (pos err width : Nat) :
    ∃ pos' err', exec i (s.withPosition pos err width) = .next (t.withPosition pos' err' width) := by
  cases i with
  | encB b => exact ⟨pos, err, exec_enc_withPosition rfl h pos err width⟩
  | decC c => exact execDecC_withPosition h pos err width
  | encEnd => exact ⟨pos, err, exec_enc_withPosition rfl h pos err width⟩
  | decEnd => exact execDecEnd_withPosition h pos err width

/-- Settles O26: every field named is outside the positions. -/
theorem positionReachesOnlyErrPos : Obligations.PositionReachesOnlyErrPos := by
  intro i s t pos width h
  obtain ⟨pos', err', hexec⟩ := exec_withPosition h pos s.errPos width
  exact ⟨t.withPosition pos' err' width, hexec, rfl, rfl, rfl, rfl, rfl, rfl, rfl, rfl, rfl⟩

end Sys2Proof.Machine
end

section
/-! PROOFS. The decode faults (spec/60_exceptions.md R88 to R100): what raises them and what a raise writes, how long they
stay, and the step that finds no command. -/

namespace Sys2Proof.Machine

/-! ### Waiting (R100) -/

theorem step_of_port_nil {s : State} (h : s.port = []) : step s = .next s := by
  simp only [step, takeEvent, h]

/-- Settles O9. -/
theorem stepWaitsOnEmptyPort : Obligations.StepWaitsOnEmptyPort := fun _ => step_of_port_nil

/-! ### Entry (R88, R94) -/

theorem phase_ne_zero_iff : ∀ p : BitVec 2, p ≠ 0 ↔ p = 1 ∨ p = 2 ∨ p = 3 := by decide

theorem exec_enc_decFault {i : Instr} {s t : State} (hi : i.isEnc = true) (h : exec i s = .next t) :
    t.decFault = s.decFault := by
  rw [exec_enc_frame hi h]
  rfl

/-- Of the cases of DEC.C only the refused character sets DEC_FAULT. -/
theorem execDecC_raises {c : Byte} {s t : State} (h : execDecC c s = .next t) (hs : s.decFault = false)
    (ht : t.decFault = true) : revValid c = false ∧ t = raiseFault causeInvalidCharacter c s.decPos s := by
  obtain ⟨hf, -⟩ | ⟨-, -, rfl⟩ | ⟨-, hc, rfl⟩ := execDecC_cases h
  · simp [hs] at hf
  · simp [hs] at ht
  · exact ⟨hc, rfl⟩

/-- Of the cases of DEC.END only the one in the middle of a group sets DEC_FAULT. -/
theorem execDecEnd_raises {s t : State} (h : execDecEnd s = .next t) (hs : s.decFault = false)
    (ht : t.decFault = true) : s.decPhase ≠ 0 ∧ t = raiseFault causeTruncatedInput 0x00 s.decPos s := by
  obtain ⟨hf, -⟩ | ⟨-, -, rfl⟩ | ⟨-, hp, rfl⟩ := execDecEnd_cases h
  · simp [hs] at hf
  · simp [hs] at ht
  · exact ⟨hp, rfl⟩

/-- Settles O21: an ENC command leaves DEC_FAULT, and each DEC command has one case that sets it, by `raiseFault`. -/
theorem faultEntry : Obligations.FaultEntry := by
  refine ⟨fun i s t h hs ht => ?entry, fun c s hs hc => ⟨_, execDecC_invalid hs hc, rfl⟩,
    fun s hs hp => ⟨_, execDecEnd_truncated hs ((phase_ne_zero_iff _).mpr hp), rfl⟩⟩
  case entry =>
    cases hi : i.isEnc with
    | true => simp [exec_enc_decFault hi h, hs] at ht
    | false =>
      obtain ⟨c, rfl⟩ | rfl := isDec_cases (isEnc_eq_false.mp hi)
      · obtain ⟨hc, heq⟩ := execDecC_raises h hs ht
        exact .inl ⟨c, rfl, hc, heq⟩
      · obtain ⟨hp, heq⟩ := execDecEnd_raises h hs ht
        exact .inr ⟨rfl, (phase_ne_zero_iff _).mp hp, heq⟩

/-! ### Return (R97) -/

/-- Behind a fault no command writes a fault register: an ENC command never does, and a DEC command does nothing. -/
theorem exec_faulted_faultRegisters {i : Instr} {s t : State} (hf : s.decFault = true) (h : exec i s = .next t) :
    t.decFault = true ∧ t.decCause = s.decCause ∧ t.errChar = s.errChar ∧ t.errPos = s.errPos := by
  cases hi : i.isEnc with
  | true =>
    rw [exec_enc_frame hi h]
    exact ⟨hf, rfl, rfl, rfl⟩
  | false =>
    rw [exec_dec_faulted (isEnc_eq_false.mp hi) hf] at h
    cases h
    exact ⟨hf, rfl, rfl, rfl⟩

theorem resetEvent_registersReset (s : State) : (resetEvent s).RegistersReset := resetAt_registersReset s.posWidth

/-- Settles O23, by what the step took: nothing, a command, or a reset. Taking an event off the port touches no register. -/
theorem faultStaysUntilReset : Obligations.FaultStaysUntilReset := by
  intro s t hf h
  obtain ⟨hport, rfl⟩ | ⟨w, es, hport, -, hexec⟩ | ⟨es, hport, rfl⟩ := step_cases h
  · exact ⟨fun _ => ⟨hf, rfl, rfl, rfl⟩, by simp [hport]⟩
  · exact ⟨fun _ => exec_faulted_faultRegisters (s := { s with port := es }) hf hexec, by simp [hport]⟩
  · exact ⟨by simp [hport], fun _ => resetEvent_registersReset _⟩

end Sys2Proof.Machine
end

section
/-! PROOFS. Reset and hazards (spec/70_reset_and_hazards.md R101 to R107): the step that takes a reset, a command before
the first reset, messages without an END between them, and the freedom to interleave the two units. -/

namespace Sys2Proof.Machine

/-! ### Interleaving (R107) -/

/-- `part u s` is `u` with the part of `s` that the commands of `other` do not touch: every further command runs on that
part alone, and a reset writes it alone where both states agree on whether a reset has come. -/
structure IsPartBeside (other : Instr → Bool) (part : State → State → State) : Prop where
  wasReset (u s : State) : (part u s).wasReset = u.wasReset
  own {i : Instr} {s t : State} (hi : other i = false) (h : exec i s = .next t) (u : State) :
    exec i (part u s) = .next (part u t)
  frame {i : Instr} {s t : State} (hi : other i = true) (h : exec i s = .next t) (u : State) : part u t = part u s
  reset {u s : State} (h : u.wasReset = s.wasReset) : resetEvent (part u s) = part (resetEvent u) (resetEvent s)

/-- The ENC part stands beside the DEC commands. -/
theorem withEncOf_isPartBeside : IsPartBeside Instr.isDec State.withEncOf where
  wasReset _ _ := rfl
  own hi h u := exec_withEncOf (isDec_eq_false.mp hi) h u
  frame hi h u := by
    rw [exec_dec_frame hi h]
    rfl
  reset h := by simp only [resetEvent, State.withEncOf, h]

/-- The DEC part stands beside the ENC commands. -/
theorem withDecOf_isPartBeside : IsPartBeside Instr.isEnc State.withDecOf where
  wasReset _ _ := rfl
  own hi h u := exec_withDecOf (isEnc_eq_false.mp hi) h u
  frame hi h u := by
    rw [exec_enc_frame hi h]
    rfl
  reset h := by simp only [resetEvent, State.withDecOf, h]

theorem applyEvent_reset (s : State) : applyEvent .reset s = .next (resetEvent s) := rfl

/-- A command that answers a next state came after the first reset. -/
theorem applyEvent_command_eq_next {w : CommandWord} {s t : State} :
    applyEvent (.command w) s = .next t ↔ s.wasReset = true ∧ exec (decode w) s = .next t := by
  cases hs : s.wasReset <;> simp [applyEvent, hs]

/-- Deleting the commands of `other` from a sequence that runs leaves one that runs, and leaves the part beside them. -/
theorem runEvents_delete {other : Instr → Bool} {part : State → State → State} (hpart : IsPartBeside other part)
    {es : List Event} {s t u : State} (hreset : u.wasReset = s.wasReset) (h : runEvents es s = .next t) :
    ∃ v, runEvents (es.filter fun e => !e.instr?.any other) (part u s) = .next (part v t) := by
  induction es generalizing s u with
  | nil =>
    cases h
    exact ⟨u, rfl⟩
  | cons e es ih =>
    obtain ⟨r, he, hrun⟩ := andThen_eq_next.mp h
    cases e with
    | reset =>
      cases he
      rw [List.filter_cons_of_pos rfl, runEvents, applyEvent_reset, andThen_next, hpart.reset hreset]
      exact ih rfl hrun
    | command w =>
      obtain ⟨hs, hexec⟩ := applyEvent_command_eq_next.mp he
      have hr : u.wasReset = r.wasReset := hreset.trans (exec_extends hexec).wasReset.symm
      cases hw : other (decode w) with
      | true =>
        rw [List.filter_cons_of_neg (by simp [Event.instr?, hw]), ← hpart.frame hw hexec u]
        exact ih hr hrun
      | false =>
        have hkept : applyEvent (.command w) (part u s) = .next (part u r) :=
          applyEvent_command_eq_next.mpr ⟨(hpart.wasReset u s).trans (hreset.trans hs), hpart.own hw hexec u⟩
        rw [List.filter_cons_of_pos (by simp [Event.instr?, hw]), runEvents, hkept, andThen_next]
        exact ih hr hrun

/-- Settles O57: each history lies in the part of its unit, which the other unit's commands can be deleted beside. -/
theorem interleavingIsFree : Obligations.InterleavingIsFree := by
  intro es s t h
  obtain ⟨u, hu⟩ := runEvents_delete withEncOf_isPartBeside (u := s) rfl h
  obtain ⟨v, hv⟩ := runEvents_delete withDecOf_isPartBeside (u := s) rfl h
  exact ⟨⟨_, hu, rfl⟩, _, hv, rfl⟩

/-! ### Messages without an END between them (R106) -/

/-- Settles O58: the bytes of both are the bytes of one message. The premise on the residue is not used: phase 0 reads
no residue. -/
theorem messagesWithoutEndRunTogether : Obligations.MessagesWithoutEndRunTogether := by
  intro x y s hphase _
  have hrun := runCommands_message (x ++ y) hphase
  rw [List.map_append, List.append_assoc] at hrun
  exact ⟨_, hrun, rfl⟩

/-! ### The reset event (R101 to R103) -/

/-- After the first reset a further one leaves the histories and writes every other register of R13. -/
theorem resetEvent_of_wasReset {s : State} (h : s.wasReset = true) : resetEvent s =
    { s with
      encPhase := 0, encRes := 0, decPhase := 0, decRes := 0, decPos := 0
      decFault := false, decCause := 0, errChar := 0x00, errPos := 0 } := by
  simp only [resetEvent, h, if_true]

theorem resetEvent_of_registersReset {s : State} (h : s.wasReset = true) (hs : s.RegistersReset) :
    resetEvent s = s := by
  rw [resetEvent_of_wasReset h]
  cases s
  obtain ⟨rfl, rfl, rfl, rfl, rfl, rfl, rfl, rfl, rfl⟩ := hs
  rfl

theorem step_of_port_reset {s : State} {es : List Event} (h : s.port = .reset :: es) :
    step s = .next (resetEvent { s with port := es }) :=
  step_of_port_cons h

/-- Settles O8: the step is the reset event on the state without it on the port, and only the histories depend on whether
a reset has come. -/
theorem stepTakesReset : Obligations.StepTakesReset := by
  refine ⟨fun s h hs => ?again, fun s es hport => ⟨fun h => ?later, fun h => ?first⟩⟩
  case again => rw [applyEvent_reset, resetEvent_of_registersReset h hs]
  case later =>
    have hreset : ({ s with port := es } : State).wasReset = true := h
    rw [step_of_port_reset hport, resetEvent_of_wasReset hreset]
  case first =>
    exact ⟨_, step_of_port_reset hport, resetEvent_registersReset _, by simp [h], by simp [h], rfl, rfl, rfl⟩

/-! ### Before the first reset (R102, R104) -/

theorem applyEvent_command_beforeReset {s : State} (w : CommandWord) (h : s.wasReset = false) :
    applyEvent (.command w) s = .refused .commandBeforeFirstReset := by
  simp [applyEvent, h]

/-- Settles O10: taking the command off the port does not change whether a reset has come. -/
theorem commandBeforeFirstResetRefused : Obligations.CommandBeforeFirstResetRefused := by
  intro s w es hport hreset
  rw [step_of_port_cons hport]
  exact applyEvent_command_beforeReset w hreset

end Sys2Proof.Machine
end
